-- ==== Sys2Proof/Word.lean ====
section
/-! DEFINITION. The word types of MD26: whole 32-bit words, 9-bit word addresses, 5-bit residues and the four matrix
register names (20_memory.md R30, 00_scope.md R2, R5). -/

namespace Sys2Proof

/-- A word of the host port, of a register or of a command (20_memory.md R30, 30_encoding.md R50). -/
abbrev Word := BitVec 32

/-- `WADDR[8:0]`: one of the 512 words of the register window (20_memory.md R30). -/
abbrev WAddr := BitVec 9

/-- A stored residue: 5 bits, of which only the values 0 to 25 appear in reachable states (00_scope.md R5). -/
abbrev Residue := BitVec 5

/-- The name of a matrix register, `m0` to `m3` (00_scope.md R2). -/
abbrev MNum := Fin 4

/-- `zext_32` of a residue (00_scope.md R6). -/
def zext32 (r : Residue) : Word := r.setWidth 32

/-- `sint32(w)`: a word read as a two's-complement integer (00_scope.md R6). -/
def sint32 (w : Word) : Int := w.toInt

end Sys2Proof
end

