-- ==== Sys2Proof/Config.lean ====
section
/-! DEFINITION. What is fixed for one MD26: its structural parameter, the platform's open parameters, and the values the
spec leaves free. -/

namespace Sys2Proof

/-- The parameters of one MD26. They never change while it runs (00_scope.md R1; 92_eei_decisions.md, "Named open
parameters"). The legal range of `N_MAX` is carried as proof, so every statement over all states is over all eight
values. -/
structure Config where
  /-- `N_MAX`, the largest matrix dimension (00_scope.md R1). -/
  nMax : Nat
  nMax_pos : 1 ≤ nMax
  nMax_le : nMax ≤ 8
  /-- `MD26_BASE`, the byte address of the register window on the platform bus (20_memory.md R41, OPEN). -/
  md26Base : Nat
  /-- `MD26_IRQ`, the platform interrupt line of `irq` (60_exceptions.md R150, OPEN). -/
  md26Irq : Nat
deriving DecidableEq, Repr

/-- The number of residue fields of a matrix register and of staging words, `N_MAX²` (10_state.md R11, R15). -/
def Config.slots (c : Config) : Nat := c.nMax * c.nMax

/-- The reference configuration: `N_MAX = 4` is the spec's reference value (00_scope.md R1); the two platform numbers
are a DESIGN CHOICE, unsafe (notes/assumptions/2.md), and no statement rests on them. -/
def Config.reference : Config :=
  { nMax := 4, nMax_pos := by decide, nMax_le := by decide, md26Base := 0, md26Irq := 0 }

/-- The `n`-th free read value. While `BUSY = 1`, a host read of a register that the in-flight command may write
returns any 32-bit value (70_reset_and_hazards.md R172): this constant has no body, so nothing can be proved of it
(notes/assumptions/4.md). -/
opaque Config.freeRead : Nat → Word

end Sys2Proof
end

