-- ==== Sys2Proof/Machine/State.lean ====
section
/-! DEFINITION. The state of MD26 as plain data (10_state.md R29), the steps its surroundings can take, the reasons a
step can stop, and the state after reset (10_state.md R27). -/

namespace Sys2Proof.Machine

/-- `STATUS.ERR`: the error codes a commit can record (60_exceptions.md R140). Codes 7 to 15 are never produced, so
they have no constructor. -/
inductive ErrCode where
  /-- 0: the command succeeded. -/
  | ok
  /-- 1: BUILD, `len` is not a perfect square. -/
  | shape
  /-- 2: INV, the determinant has no inverse. -/
  | singular
  /-- 3: BUILD, `len = 0` or the dimension is above `N_MAX`. -/
  | dimension
  /-- 4: DET, INV, COL, DIM, the source register is empty. -/
  | empty
  /-- 5: COL, the column index is outside the matrix. -/
  | index
  /-- 6: the word is not legal. -/
  | illegal
deriving DecidableEq, Repr

/-- A matrix register (10_state.md R11): `dim = 0` is empty; `e` holds its `N_MAX²` residue fields in row-major
order. -/
structure MReg where
  dim : Nat
  e : List Residue
deriving DecidableEq, Repr

/-- `CTRL` (10_state.md R19): bit 0 is storage, bits 31:1 are hard-wired 0. -/
structure Ctrl where
  /-- Interrupt enable. -/
  ie : Bool
deriving DecidableEq, Repr

/-- `STATUS` (10_state.md R20): bits 0, 1, 2 and 7:4 are storage, all others are hard-wired 0. -/
structure Status where
  busy : Bool
  done : Bool
  ovr : Bool
  err : ErrCode
deriving DecidableEq, Repr

/-- What a word address selects (20_memory.md R32). -/
inductive Reg where
  | id
  | param
  | ctrl
  | status
  | cmd
  | operand
  | scalarOut
  | mdim (k : MNum)
  | stage (i : Nat)
  | vecOut (j : Nat)
  | melem (k : MNum) (i : Nat)
  | reserved
deriving DecidableEq, Repr

/-- A transaction of the host port (20_memory.md R30). -/
inductive HostOp where
  | read (a : WAddr)
  | write (a : WAddr) (w : Word)
deriving DecidableEq, Repr

/-- An access of a byte-addressed platform bus, as a bridge before the port sees it (20_memory.md R38, R39): a read of
`size` bytes, or a write of the listed bytes, the lowest address first. -/
inductive BusAccess where
  | read (addr : Nat) (size : Nat)
  | write (addr : Nat) (bytes : List (BitVec 8))
deriving DecidableEq, Repr

/-- One entry of the total order of steps (20_memory.md R43, 10_state.md R10). -/
inductive Event where
  /-- A host transaction at the port. -/
  | host (op : HostOp)
  /-- A platform bus access, which the bridge forwards to the port or does not. -/
  | bus (acc : BusAccess)
  /-- The engine's turn: it commits when a command is in flight (70_reset_and_hazards.md R171). -/
  | engine
  /-- The reset input is asserted (70_reset_and_hazards.md R160). -/
  | reset
deriving DecidableEq, Repr

/-- The state of MD26. `mreg` to `cmd` are the architectural state (10_state.md R29). `cfg` is configuration, carried
here so that one step function serves every `N_MAX` (notes/assumptions/1.md). `agenda`, `rdata` and `draws` are the
model's own: the steps still to come, the port's read data, and the counter of free read values
(notes/assumptions/3.md, 5.md, 4.md). -/
structure State where
  cfg : Config
  mreg : Vector MReg 4
  stage : List Word
  operand : Word
  scalarOut : Word
  vecOut : List Word
  ctrl : Ctrl
  status : Status
  cmd : Word
  agenda : List Event
  rdata : Word
  draws : Nat
deriving DecidableEq, Repr

/-- Why a step could stop with a fault. There is no reason: no behaviour of MD26 stops the machine
(93_implementation_defined.md, "`stuck`: not used"; 60_exceptions.md R146), so nobody raises one
(notes/assumptions/10.md). -/
inductive Fault where
deriving DecidableEq, Repr

/-- Why a step could be refused. -/
inductive Refusal where
  /-- The command of this mnemonic has no meaning yet. Nobody raises it: every command has its meaning. Safe. -/
  | notModelled (mnemonic : String)
deriving DecidableEq, Repr

/-- An outcome of a step of this machine. -/
abbrev Outcome := Host.Outcome State Fault Refusal

/-- An empty matrix register with every field 0 (10_state.md R27). -/
def MReg.cleared (c : Config) : MReg := { dim := 0, e := List.replicate c.slots 0 }

/-- The state right after reset, for a given configuration (10_state.md R27). The model's own fields `agenda`, `rdata`
and `draws` have no value in the spec: empty, 0 and 0 are a DESIGN CHOICE (notes/assumptions/3.md, 5.md, 4.md). -/
def State.resetWith (c : Config) : State :=
  { cfg := c
    mreg := Vector.replicate 4 (MReg.cleared c)
    stage := List.replicate c.slots 0
    operand := 0
    scalarOut := 0
    vecOut := List.replicate c.nMax 0
    ctrl := { ie := false }
    status := { busy := false, done := false, ovr := false, err := .ok }
    cmd := 0
    agenda := []
    rdata := 0
    draws := 0 }

/-- The state right after reset, at the spec's reference value `N_MAX = 4` (10_state.md R27, 00_scope.md R1). -/
def State.reset : State := State.resetWith Config.reference

end Sys2Proof.Machine
end

