-- ==== Sys2Proof/Machine/Flags.lean ====
section
/-! DEFINITION. The control and status registers as words, their writes, and the interrupt output (10_state.md R19, R20,
R28; 60_exceptions.md R140, R143, R144, R147, R150). -/

namespace Sys2Proof.Machine

/-- The 4-bit code of an error (60_exceptions.md R140). -/
def ErrCode.code : ErrCode → BitVec 4
  | .ok => 0
  | .shape => 1
  | .singular => 2
  | .dimension => 3
  | .empty => 4
  | .index => 5
  | .illegal => 6

/-- `CTRL` as a read returns it (10_state.md R19). -/
def Ctrl.word (c : Ctrl) : Word := 0#31 ++ BitVec.ofBool c.ie

/-- `STATUS` as a read returns it: ERR in bits 7:4, OVR, DONE and BUSY in bits 2, 1 and 0 (10_state.md R20). -/
def Status.word (t : Status) : Word :=
  0#24 ++ t.err.code ++ 0#1 ++ BitVec.ofBool t.ovr ++ BitVec.ofBool t.done ++ BitVec.ofBool t.busy

/-- A host write of `CTRL` writes IE and nothing else (20_memory.md R36). -/
def Ctrl.written (w : Word) : Ctrl := { ie := w.getLsbD 0 }

/-- A host write of `STATUS`: a 1 in bit 1 clears DONE, a 1 in bit 2 clears OVR (10_state.md R20, 20_memory.md R36). -/
def Status.written (w : Word) (t : Status) : Status :=
  { t with done := t.done && !w.getLsbD 1, ovr := t.ovr && !w.getLsbD 2 }

/-- STATUS at the accept of a command: ERR and OVR keep their values (60_exceptions.md R143). -/
def Status.accepted (t : Status) : Status := { t with busy := true, done := false }

/-- STATUS at a commit that records the code `e` (60_exceptions.md R144): OVR keeps its value. -/
def Status.committed (e : ErrCode) (t : Status) : Status :=
  { t with busy := false, done := true, err := e }

/-- STATUS after an overrun (60_exceptions.md R147). -/
def Status.overrun (t : Status) : Status := { t with ovr := true }

/-- The output `irq = STATUS.DONE AND CTRL.IE` (10_state.md R28, 60_exceptions.md R150). -/
def State.irq (s : State) : Bool := s.status.done && s.ctrl.ie

/-- The platform interrupt line `line` as MD26 drives it: only `MD26_IRQ` carries `irq` (60_exceptions.md R150). -/
def State.irqLine (s : State) (line : Nat) : Bool := decide (line = s.cfg.md26Irq) && s.irq

end Sys2Proof.Machine
end

