-- ==== Sys2Proof/Machine/Ops.lean ====
section
/-! DEFINITION. The named operations over MD26's registers, and the shared ends of every command: the commit that
succeeds and the commit that records an error. An MD26 error is no trap, so that second end is the machine's only
"exception", and there is no return from it (60_exceptions.md R144 to R146). -/

namespace Sys2Proof.Machine

/-! ### Registers -/

/-- `MREG[k]` (10_state.md R11). -/
def State.matrix (s : State) (k : MNum) : MReg := s.mreg[k.val]

/-- Replace the whole content of `MREG[k]` (10_state.md R13). -/
def State.setMatrix (s : State) (k : MNum) (m : MReg) : State := { s with mreg := s.mreg.set k.val m }

/-- Write `SCALAR_OUT` (10_state.md R17). -/
def State.setScalarOut (s : State) (w : Word) : State := { s with scalarOut := w }

/-- Write every word of `VEC_OUT` (10_state.md R18, 20_memory.md R40). -/
def State.setVecOut (s : State) (v : List Word) : State := { s with vecOut := v }

/-- Write `OPERAND` (10_state.md R16). -/
def State.setOperand (s : State) (w : Word) : State := { s with operand := w }

/-- Write `STAGE[i]` (10_state.md R15). -/
def State.setStage (s : State) (i : Nat) (w : Word) : State := { s with stage := s.stage.set i w }

/-- Write `CTRL` (10_state.md R19). -/
def State.setCtrl (s : State) (c : Ctrl) : State := { s with ctrl := c }

/-- Write `STATUS` (10_state.md R20). -/
def State.setStatus (s : State) (t : Status) : State := { s with status := t }

/-- Residue field `i` of a flat sequence; past its end, 0. -/
def elem (e : List Residue) (i : Nat) : Residue := e.getD i 0

/-- A sequence of residues followed by zeros up to `n` fields: the padding of 10_state.md R12. -/
def padTo (n : Nat) (l : List Residue) : List Residue := l ++ List.replicate (n - l.length) 0

/-! ### The ends of a command (60_exceptions.md R144) -/

/-- The commit's writes to STATUS: `ERR <- e`, `BUSY <- 0`, `DONE <- 1`. -/
def State.commit (e : ErrCode) (s : State) : State := s.setStatus (s.status.committed e)

/-- The pseudocode succeeded: its writes stand in `s`, and `ERR <- 0`. -/
def succeed (s : State) : Outcome := .next (s.commit .ok)

/-- `fail E`: no write except `ERR <- E` (60_exceptions.md R144, R145). -/
def failWith (e : ErrCode) (s : State) : Outcome := .next (s.commit e)

/-! ### Accept, overrun, reset -/

/-- The accept of a command word (60_exceptions.md R143). -/
def State.accept (w : Word) (s : State) : State := { s with cmd := w, status := s.status.accepted }

/-- A write that is discarded because a command is in flight (60_exceptions.md R147). -/
def State.overrun (s : State) : State := s.setStatus s.status.overrun

/-- The reset step: every piece of architectural state takes its reset value whatever it was, and the command in
flight is gone (70_reset_and_hazards.md R160). The configuration is no state; the rest of the agenda, the last read
data and the counter of free values are the surroundings' (notes/assumptions/9.md). -/
def State.resetStep (s : State) : State :=
  { State.resetWith s.cfg with agenda := s.agenda, rdata := s.rdata, draws := s.draws }

end Sys2Proof.Machine
end

