-- ==== Sys2Proof/Machine/Operands.lean ====
section
/-! DEFINITION. The operand forms of the commands: OPERAND and the staging words read as integers, and a source matrix
register, which must not be empty (30_encoding.md R51; 10_state.md R15, R16; 60_exceptions.md R148). -/

namespace Sys2Proof.Machine

/-- `sint32(OPERAND)` (10_state.md R16). -/
def State.operandInt (s : State) : Int := sint32 s.operand

/-- `sint32(STAGE[i])` (10_state.md R15). -/
def State.stageInt (s : State) (i : Nat) : Int := sint32 (s.stage.getD i 0)

/-- `[sint32(STAGE[0]), ..., sint32(STAGE[len-1])]` (41_matrix_construction.md R81). -/
def State.stageInts (s : State) (len : Nat) : List Int := (List.range len).map s.stageInt

/-- A command over the source register `MREG[ms]`: EMPTY when it holds no matrix, else the command's own effect `k` on
its content (42_determinant.md R93, 43_inverse.md R106, 44_matrix_query.md R120, R122). -/
def withSource (ms : MNum) (k : MReg → Outcome) (s : State) : Outcome :=
  if (s.matrix ms).dim = 0 then failWith .empty s else k (s.matrix ms)

end Sys2Proof.Machine
end

