-- ==== Sys2Proof/Machine/ModularArithmetic.lean ====
section
/-! DEFINITION. The residue normalizer, the inverse lookup, and the commands NORM and RINV
(40_modular_arithmetic.md). -/

namespace Sys2Proof.Machine

/-- `normalize(n) = n mod 26`, the Euclidean remainder (40_modular_arithmetic.md R70, 00_scope.md R7). -/
def normalize26 (n : Int) : Residue := BitVec.ofNat 5 (n % 26).toNat

/-- A residue as an integer: arithmetic inside the engine is exact (00_scope.md R6). -/
def val (r : Residue) : Int := (r.toNat : Int)

/-- The 26 entries of the inverse lookup (40_modular_arithmetic.md R71). -/
def invTable : List Residue :=
  [0, 1, 0, 9, 0, 21, 0, 15, 0, 3, 0, 19, 0] ++ [0, 0, 7, 0, 23, 0, 11, 0, 5, 0, 17, 0, 25]

/-- `InvTab(r)`: the inverse of a residue mod 26, or the sentinel 0 (40_modular_arithmetic.md R71). -/
def invTab (r : Residue) : Residue := elem invTable r.toNat

/-- NORM: `SCALAR_OUT <- zext_32(normalize(sint32(OPERAND)))` (40_modular_arithmetic.md R73). -/
def execNorm (s : State) : Outcome :=
  succeed (s.setScalarOut (zext32 (normalize26 s.operandInt)))

/-- RINV: `SCALAR_OUT <- zext_32(InvTab(normalize(sint32(OPERAND))))`; no inverse is the value 0 and no error
(40_modular_arithmetic.md R74, R75). -/
def execRinv (s : State) : Outcome :=
  succeed (s.setScalarOut (zext32 (invTab (normalize26 s.operandInt))))

end Sys2Proof.Machine
end

