-- ==== Sys2Proof/Machine/Construction.lean ====
section
/-! DEFINITION. Matrix construction and the command BUILD (41_matrix_construction.md). -/

namespace Sys2Proof.Machine

/-- The integer `n ≥ 0` with `n * n = L`, if there is one. -/
def exactSqrt (L : Nat) : Option Nat := (List.range (L + 1)).find? (fun n => n * n == L)

/-- `FromFlat(vals)` (41_matrix_construction.md R80): ShapeError when the length is no perfect square, DimError when the
dimension is 0 or above `N_MAX`, else the matrix of the normalized values, padded with zeros to `N_MAX²` fields. -/
def fromFlat (c : Config) (vals : List Int) : Except ErrCode MReg :=
  match exactSqrt vals.length with
  | none => .error .shape
  | some n =>
    if n = 0 ∨ c.nMax < n then .error .dimension
    else .ok { dim := n, e := padTo c.slots (vals.map normalize26) }

/-- BUILD md, len: build a matrix from the first `len` staging words into `MREG[md]` (41_matrix_construction.md R81). -/
def execBuild (md : MNum) (len : Nat) (s : State) : Outcome :=
  match fromFlat s.cfg (s.stageInts len) with
  | .error e => failWith e s
  | .ok m => succeed (s.setMatrix md m)

end Sys2Proof.Machine
end

