-- ==== Sys2Proof/Machine/Control.lean ====
section
/-! DEFINITION. The control command NOP (45_control.md). -/

namespace Sys2Proof.Machine

/-- NOP: `ERR <- 0` and nothing else (45_control.md R130). -/
def execNop (s : State) : Outcome := succeed s

end Sys2Proof.Machine
end

