-- ==== Sys2Proof/Machine/Determinant.lean ====
section
/-! DEFINITION. The determinant engine and the command DET (42_determinant.md). -/

namespace Sys2Proof.Machine

/-- The flat indices that stay when row `r` and column `c` of an n×n matrix are deleted, in increasing order
(42_determinant.md R90). -/
def minorIndices (n r c : Nat) : List Nat :=
  (List.range (n * n)).filter (fun idx => decide (idx / n ≠ r) && decide (idx % n ≠ c))

/-- `Minor(e, n, r, c)`: the submatrix without row `r` and column `c` (42_determinant.md R90). -/
def minor (e : List Residue) (n r c : Nat) : List Residue := (minorIndices n r c).map (elem e)

/-- `(-1)^i` (00_scope.md R8). -/
def sign (i : Nat) : Int := if i % 2 = 0 then 1 else -1

/-- `Det(e, n)`, by cofactor expansion along the first row, with the source's sign `(-1)^i` (42_determinant.md R91,
90_conflicts.md C1). The spec defines it for `1 ≤ n`; no command asks for `n = 0` (an empty source is EMPTY before). -/
def det : Nat → List Residue → Residue
  | 0, _ => 0
  | 1, e => elem e 0
  | 2, e => normalize26 (val (elem e 0) * val (elem e 3) - val (elem e 1) * val (elem e 2))
  | n + 3, e =>
    normalize26 ((List.range (n + 3)).map
      (fun i => sign i * val (elem e i) * val (det (n + 2) (minor e (n + 3) 0 i)))).sum

/-- DET ms: `SCALAR_OUT <- zext_32(Det(MREG[ms].e, n))`, or EMPTY (42_determinant.md R93). -/
def execDet (ms : MNum) (s : State) : Outcome :=
  withSource ms (fun m => succeed (s.setScalarOut (zext32 (det m.dim m.e)))) s

end Sys2Proof.Machine
end

