-- ==== Sys2Proof/Machine/Inverse.lean ====
section
/-! DEFINITION. The adjugate builder, the inverse multiplier and the command INV (43_inverse.md). -/

namespace Sys2Proof.Machine

/-- `Transpose(e, n)`: `T[r*n + c] = e[c*n + r]` (43_inverse.md R100). -/
def transpose (e : List Residue) (n : Nat) : List Residue :=
  (List.range (n * n)).map (fun i => elem e (i % n * n + i / n))

/-- `dInv = InvTab(normalize(Det(e, n)))` (43_inverse.md R101). -/
def detInverse (n : Nat) (e : List Residue) : Residue := invTab (normalize26 (val (det n e)))

/-- `AdjScaled1`: the inverse of a 1×1 matrix (43_inverse.md R105). -/
def adjScaled1 (dInv : Residue) : List Residue := [dInv]

/-- `AdjScaled2`: the dimension-2 fast path (43_inverse.md R103). -/
def adjScaled2 (e : List Residue) (dInv : Residue) : List Residue :=
  [normalize26 (val (elem e 3) * val dInv), normalize26 (-val (elem e 1) * val dInv),
   normalize26 (-val (elem e 2) * val dInv), normalize26 (val (elem e 0) * val dInv)]

/-- `AdjScaled`, for `n ≥ 3`: the sign exponent is the FLAT index `i`, as the source has it (43_inverse.md R102,
90_conflicts.md C2). -/
def adjScaled (e : List Residue) (n : Nat) (dInv : Residue) : List Residue :=
  (List.range (n * n)).map (fun i =>
    normalize26 (sign i * val (det (n - 1) (minor (transpose e n) n (i / n) (i % n))) * val dInv))

/-- The `n²` entries that INV writes, by dimension (43_inverse.md R106). -/
def inverseEntries (n : Nat) (e : List Residue) (dInv : Residue) : List Residue :=
  if n = 1 then adjScaled1 dInv else if n = 2 then adjScaled2 e dInv else adjScaled e n dInv

/-- INV md, ms: the modular inverse of `MREG[ms]` into `MREG[md]`, or EMPTY, or SINGULAR (43_inverse.md R106). The
source is read in full before the destination is written, so `md = ms` is the same operation. -/
def execInv (md ms : MNum) (s : State) : Outcome :=
  withSource ms (fun m =>
    if detInverse m.dim m.e = 0 then failWith .singular s
    else succeed (s.setMatrix md
      { dim := m.dim, e := padTo s.cfg.slots (inverseEntries m.dim m.e (detInverse m.dim m.e)) })) s

end Sys2Proof.Machine
end

