-- ==== Sys2Proof/Machine/Query.lean ====
section
/-! DEFINITION. The matrix queries COL and DIM (44_matrix_query.md). -/

namespace Sys2Proof.Machine

/-- Column `j` of an n×n matrix, zero-extended, followed by zeros up to `N_MAX` words (44_matrix_query.md R120). -/
def columnWords (c : Config) (m : MReg) (j : Nat) : List Word :=
  (List.range c.nMax).map (fun k => if k < m.dim then zext32 (elem m.e (j + k * m.dim)) else 0)

/-- COL ms, j: column `j` of `MREG[ms]` into `VEC_OUT`, or EMPTY, or INDEX (44_matrix_query.md R120). -/
def execCol (ms : MNum) (j : Nat) (s : State) : Outcome :=
  withSource ms (fun m =>
    if m.dim ≤ j then failWith .index s else succeed (s.setVecOut (columnWords s.cfg m j))) s

/-- DIM ms: `SCALAR_OUT <- zext_32(n)`, or EMPTY (44_matrix_query.md R122). -/
def execDim (ms : MNum) (s : State) : Outcome :=
  withSource ms (fun m => succeed (s.setScalarOut (BitVec.ofNat 32 m.dim))) s

end Sys2Proof.Machine
end

