-- ==== Sys2Proof/Syntax.lean ====
section
/-! DEFINITION. The eight commands of MD26 as syntax: one constructor per row of spec/opcode_table.json
(30_encoding.md R53, R56). -/

namespace Sys2Proof

/-- An MD26 command. Register operands name `m0` to `m3`; immediates are the unsigned integers the assembler accepts
when they are at most 255 (30_encoding.md R56; see WellFormed.lean). -/
inductive Instr where
  /-- `NOP` (45_control.md R130). -/
  | nop
  /-- `NORM` (40_modular_arithmetic.md R73). -/
  | norm
  /-- `RINV` (40_modular_arithmetic.md R74). -/
  | rinv
  /-- `BUILD md, len` (41_matrix_construction.md R81). -/
  | build (md : MNum) (len : Nat)
  /-- `DET ms` (42_determinant.md R93). -/
  | det (ms : MNum)
  /-- `INV md, ms` (43_inverse.md R106). -/
  | inv (md : MNum) (ms : MNum)
  /-- `COL ms, j` (44_matrix_query.md R120). -/
  | col (ms : MNum) (j : Nat)
  /-- `DIM ms` (44_matrix_query.md R122). -/
  | dim (ms : MNum)
deriving DecidableEq, Repr

end Sys2Proof
end

