-- ==== Sys2Proof/Machine/Dispatch.lean ====
section
/-! DEFINITION. The commit of a decoded command: its pseudocode and the status writes (60_exceptions.md R144), one arm
per row of the opcode table. -/

namespace Sys2Proof.Machine

def exec (i : Instr) (s : State) : Host.Outcome State Fault Refusal :=
  match i with
  | .nop => Sys2Proof.Machine.execNop s
  | .norm => Sys2Proof.Machine.execNorm s
  | .rinv => Sys2Proof.Machine.execRinv s
  | .build md len => Sys2Proof.Machine.execBuild md len s
  | .det ms => Sys2Proof.Machine.execDet ms s
  | .inv md ms => Sys2Proof.Machine.execInv md ms s
  | .col ms j => Sys2Proof.Machine.execCol ms j s
  | .dim ms => Sys2Proof.Machine.execDim ms s

end Sys2Proof.Machine
end

