-- ==== Sys2Proof/WellFormed.lean ====
section
/-! DEFINITION. Which commands the assembler accepts (30_encoding.md R56): an immediate lies in 0..255. A register name
outside m0..m3 cannot be written at all, since `MNum` has four values. -/

namespace Sys2Proof

/-- "An assembler refuses an immediate outside 0..255" (30_encoding.md R56). -/
def immOk (n : Nat) : Bool := decide (n ≤ 255)

/-- The command can be encoded: every immediate fits its 8-bit field (30_encoding.md R50, R56). -/
def Instr.wf : Instr → Bool
  | .nop => true
  | .norm => true
  | .rinv => true
  | .build _ len => immOk len
  | .det _ => true
  | .inv _ _ => true
  | .col _ j => immOk j
  | .dim _ => true

end Sys2Proof
end

