-- ==== Sys2Proof/Decode.lean ====
section
/-! DEFINITION. The command decoder, total on words and rejecting by name (30_encoding.md R50 to R55), and after it the
encoder (R50, R56). -/

namespace Sys2Proof

/-! ### Fields (30_encoding.md R51): plain unsigned slices -/

/-- `OP = w[3:0]`. -/
def fieldOP (w : Word) : BitVec 4 := w.extractLsb' 0 4

/-- `MD = w[5:4]`, which names `MREG[MD]` directly. -/
def fieldMD (w : Word) : MNum := ⟨(w.extractLsb' 4 2).toNat, (w.extractLsb' 4 2).isLt⟩

/-- `MS = w[7:6]`, which names `MREG[MS]` directly. -/
def fieldMS (w : Word) : MNum := ⟨(w.extractLsb' 6 2).toNat, (w.extractLsb' 6 2).isLt⟩

/-- `IMM = w[15:8]`, the unsigned integer 0..255. -/
def fieldIMM (w : Word) : Nat := (w.extractLsb' 8 8).toNat

/-- `RSV = w[31:16]`. -/
def fieldRSV (w : Word) : BitVec 16 := w.extractLsb' 16 16

/-- Why a word is illegal (30_encoding.md R54, R55). All three end in the same error code ILLEGAL. -/
inductive Illegal where
  /-- `RSV` is not 0. -/
  | rsvNonzero
  /-- A field marked "0" for the opcode is not zero. -/
  | fieldNonzero
  /-- `OP` is `0x8` to `0xF`. -/
  | reservedOpcode
deriving DecidableEq, Repr

/-- A word whose remaining fields must be zero: the command when they are, illegal otherwise. -/
def requireZero (zero : Bool) (i : Instr) : Except Illegal Instr :=
  if zero then .ok i else .error .fieldNonzero

/-- `decodeCmd(w)` (30_encoding.md R54). -/
def decodeCmd (w : Word) : Except Illegal Instr :=
  if fieldRSV w ≠ 0 then .error .rsvNonzero
  else match (fieldOP w).toNat with
    | 0 => requireZero (fieldMD w == 0 && fieldMS w == 0 && fieldIMM w == 0) .nop
    | 1 => requireZero (fieldMD w == 0 && fieldMS w == 0 && fieldIMM w == 0) .norm
    | 2 => requireZero (fieldMD w == 0 && fieldMS w == 0 && fieldIMM w == 0) .rinv
    | 3 => requireZero (fieldMS w == 0) (.build (fieldMD w) (fieldIMM w))
    | 4 => requireZero (fieldMD w == 0 && fieldIMM w == 0) (.det (fieldMS w))
    | 5 => requireZero (fieldIMM w == 0) (.inv (fieldMD w) (fieldMS w))
    | 6 => requireZero (fieldMD w == 0) (.col (fieldMS w) (fieldIMM w))
    | 7 => requireZero (fieldMD w == 0 && fieldIMM w == 0) (.dim (fieldMS w))
    | _ => .error .reservedOpcode

/-- The instruction read from an opcode-table word: MD26 has one command length, 32 bits (30_encoding.md R52), so a
word that needs more bits is no command. -/
def decodeTableWord (nbits w : Nat) : Option Instr :=
  if w % 2 ^ nbits < 2 ^ 32 then (decodeCmd (BitVec.ofNat 32 (w % 2 ^ nbits))).toOption else none

/-! ### The encoder -/

/-- The one format, `{RSV = 0, IMM, MS, MD, OP}` from bit 31 down (30_encoding.md R50). -/
def packCmd (op : BitVec 4) (md ms : MNum) (imm : Nat) : Word :=
  0#16 ++ BitVec.ofNat 8 imm ++ BitVec.ofFin (w := 2) ms ++ BitVec.ofFin (w := 2) md ++ op

/-- The word of a command (30_encoding.md R53, R56). For a command that is not well formed this is no encoding of it
(the immediate is cut to its field); the assembler refuses such a command (`assemble`). -/
def encode : Instr → Word
  | .nop => packCmd 0x0 0 0 0
  | .norm => packCmd 0x1 0 0 0
  | .rinv => packCmd 0x2 0 0 0
  | .build md len => packCmd 0x3 md 0 len
  | .det ms => packCmd 0x4 0 ms 0
  | .inv md ms => packCmd 0x5 md ms 0
  | .col ms j => packCmd 0x6 0 ms j
  | .dim ms => packCmd 0x7 0 ms 0

/-- The assembler on syntax: it refuses an operand out of range and never writes an illegal word (30_encoding.md
R56). -/
def assemble (i : Instr) : Option Word :=
  if i.wf then some (encode i) else none

end Sys2Proof
end

