-- ==== Sys2Proof/Machine/Port.lean ====
section
/-! DEFINITION. The host port: the register map, reads, writes, and the byte-bus bridge before the port (20_memory.md;
70_reset_and_hazards.md R172). -/

namespace Sys2Proof.Machine

/-! ### The register map (20_memory.md R32) -/

/-- `decode(a)`: the register the word at number `a` of the window is. -/
def decodeIndex (c : Config) (a : Nat) : Reg :=
  if a = 0x000 then .id
  else if a = 0x001 then .param
  else if a = 0x002 then .ctrl
  else if a = 0x003 then .status
  else if a = 0x004 then .cmd
  else if a = 0x005 then .operand
  else if a = 0x006 then .scalarOut
  else if 0x008 ≤ a ∧ a ≤ 0x00B then .mdim (Fin.ofNat 4 (a - 0x008))
  else if (0x040 ≤ a ∧ a ≤ 0x07F) ∧ a - 0x040 < c.slots then .stage (a - 0x040)
  else if (0x080 ≤ a ∧ a ≤ 0x087) ∧ a - 0x080 < c.nMax then .vecOut (a - 0x080)
  else if (0x100 ≤ a ∧ a ≤ 0x1FF) ∧ (a - 0x100) % 64 < c.slots then
    .melem (Fin.ofNat 4 ((a - 0x100) / 64)) ((a - 0x100) % 64)
  else .reserved

/-- The register a word address selects. -/
def decodeAddr (c : Config) (a : WAddr) : Reg := decodeIndex c a.toNat

/-- `addr(<reg>)`: the word address of a register named in the register map (30_encoding.md R57). A reserved address has no
name, and neither has an index outside its window. -/
def regAddr : Reg → Option WAddr
  | .id => some 0x000
  | .param => some 0x001
  | .ctrl => some 0x002
  | .status => some 0x003
  | .cmd => some 0x004
  | .operand => some 0x005
  | .scalarOut => some 0x006
  | .mdim k => some (BitVec.ofNat 9 (0x008 + k.val))
  | .stage i => if i < 64 then some (BitVec.ofNat 9 (0x040 + i)) else none
  | .vecOut j => if j < 8 then some (BitVec.ofNat 9 (0x080 + j)) else none
  | .melem k i => if i < 64 then some (BitVec.ofNat 9 (0x100 + 64 * k.val + i)) else none
  | .reserved => none

/-- The staging window `0x040` to `0x07F`, implemented or not (20_memory.md R33). -/
def inStagingWindow (a : WAddr) : Bool := decide (0x040 ≤ a.toNat ∧ a.toNat ≤ 0x07F)

/-! ### Reads -/

/-- `ID` (10_state.md R22). -/
def idWord : Word := 0x4D443236

/-- `PARAM`: REV 1, NMREG 4, NMAX from bit 15 down (10_state.md R23). -/
def paramWord (c : Config) : Word := 0#16 ++ 1#8 ++ 4#4 ++ BitVec.ofNat 4 c.nMax

/-- The word a register holds (20_memory.md R31, R33; 10_state.md R19 to R24). -/
def State.readReg (s : State) : Reg → Word
  | .id => idWord
  | .param => paramWord s.cfg
  | .ctrl => s.ctrl.word
  | .status => s.status.word
  | .cmd => s.cmd
  | .operand => s.operand
  | .scalarOut => s.scalarOut
  | .mdim k => BitVec.ofNat 32 (s.matrix k).dim
  | .stage i => s.stage.getD i 0
  | .vecOut j => s.vecOut.getD j 0
  | .melem k i => zext32 (elem (s.matrix k).e i)
  | .reserved => 0

/-- The word held at an address of the window. -/
def State.peek (s : State) (a : WAddr) : Word := s.readReg (decodeAddr s.cfg a)

/-- The registers a command may write, whose reads are any value while it is in flight (70_reset_and_hazards.md
R172). -/
def Instr.mayWrite : Instr → Reg → Bool
  | .build md _, .mdim k => k == md
  | .build md _, .melem k _ => k == md
  | .inv md _, .mdim k => k == md
  | .inv md _, .melem k _ => k == md
  | .det _, .scalarOut => true
  | .norm, .scalarOut => true
  | .rinv, .scalarOut => true
  | .dim _, .scalarOut => true
  | .col _ _, .vecOut _ => true
  | _, _ => false

/-- The command in flight may write this register, so that a read of it returns any value (70_reset_and_hazards.md
R172). -/
def State.unstable (s : State) (r : Reg) : Bool :=
  s.status.busy && match decodeCmd s.cmd with
    | .ok i => Instr.mayWrite i r
    | .error _ => false

/-- A host read: it changes no architectural state (20_memory.md R35) and leaves its value on the port's read data. A
read of a register the in-flight command may write takes the next free value (70_reset_and_hazards.md R172). -/
def State.hostRead (a : WAddr) (s : State) : State :=
  if s.unstable (decodeAddr s.cfg a) then { s with rdata := Config.freeRead s.draws, draws := s.draws + 1 }
  else { s with rdata := s.peek a }

/-! ### Writes (20_memory.md R36) -/

/-- A host write. -/
def State.hostWrite (a : WAddr) (w : Word) (s : State) : State :=
  match decodeAddr s.cfg a with
  | .ctrl => s.setCtrl (Ctrl.written w)
  | .status => s.setStatus (s.status.written w)
  | .cmd => if s.status.busy then s.overrun else s.accept w
  | .operand => if s.status.busy then s.overrun else s.setOperand w
  | .stage i => if s.status.busy then s.overrun else s.setStage i w
  | .reserved => if s.status.busy && inStagingWindow a then s.overrun else s
  | .id => s
  | .param => s
  | .scalarOut => s
  | .mdim _ => s
  | .vecOut _ => s
  | .melem _ _ => s

/-- One host transaction (20_memory.md R31). -/
def State.hostStep (op : HostOp) (s : State) : State :=
  match op with
  | .read a => s.hostRead a
  | .write a w => s.hostWrite a w

/-! ### The bridge from a byte-addressed bus (20_memory.md R38, R39, R41) -/

/-- The word address of a byte address on the platform bus: the window starts at `MD26_BASE`, and word address `WADDR`
lies at byte offset `4*WADDR`. Nothing for an address with bits 1:0 not 0, or outside the window. -/
def bridgeWAddr (c : Config) (addr : Nat) : Option WAddr :=
  if addr % 4 = 0 ∧ c.md26Base ≤ addr ∧ (addr - c.md26Base) % 4 = 0 ∧ (addr - c.md26Base) / 4 < 512 then
    some (BitVec.ofNat 9 ((addr - c.md26Base) / 4))
  else none

/-- Little-endian lanes: byte lane `k` holds bits `[8k+7 : 8k]`. -/
def lanesWord (b0 b1 b2 b3 : BitVec 8) : Word := b3 ++ b2 ++ b1 ++ b0

/-- Byte lane `k` of a word, as the bridge returns read data. -/
def byteLane (w : Word) (k : Nat) : BitVec 8 := w.extractLsb' (8 * k) 8

/-- The transaction the bridge forwards: only a whole aligned word inside the window. -/
def bridge (c : Config) : BusAccess → Option HostOp
  | .read addr size => if size = 4 then (bridgeWAddr c addr).map .read else none
  | .write addr bytes =>
    match bytes with
    | [b0, b1, b2, b3] => (bridgeWAddr c addr).map (fun a => .write a (lanesWord b0 b1 b2 b3))
    | _ => none

/-- A bus access: what is not forwarded never reaches MD26, and what the bridge then answers is the platform's
(`BRIDGE_SUBWORD`, notes/assumptions/6.md). -/
def State.busStep (acc : BusAccess) (s : State) : State :=
  match bridge s.cfg acc with
  | some op => s.hostStep op
  | none => s

end Sys2Proof.Machine
end

