-- ==== Sys2Proof/Machine/Engine.lean ====
section
/-! DEFINITION. The engine's step, and one entry of the total order of steps (10_state.md R10; 60_exceptions.md R144;
70_reset_and_hazards.md R160, R171). -/

namespace Sys2Proof.Machine

/-- The commit of the command in `CMD`: decode it and run it; an illegal word ends at `fail ILLEGAL`
(60_exceptions.md R144, 30_encoding.md R54). -/
def commitStep (s : State) : Outcome :=
  match decodeCmd s.cmd with
  | .ok i => exec i s
  | .error _ => failWith .illegal s

/-- The engine's turn: its one step is enabled only while a command is in flight (60_exceptions.md R144); without one
it is idle and all state holds (60_exceptions.md R157). -/
def engineStep (s : State) : Outcome := if s.status.busy then commitStep s else .next s

/-- One entry of the total order. -/
def eventStep (ev : Event) (s : State) : Outcome :=
  match ev with
  | .host op => .next (s.hostStep op)
  | .bus acc => .next (s.busStep acc)
  | .engine => engineStep s
  | .reset => .next s.resetStep

/-- `s` with the rest of its agenda only. -/
def State.withAgenda (s : State) (l : List Event) : State := { s with agenda := l }

end Sys2Proof.Machine
end

