-- ==== Sys2Proof/Machine/Step.lean ====
section
/-! DEFINITION. One step of MD26 and its surroundings: the next entry of the agenda, or, with nothing left on it, the
engine's own step. -/

namespace Sys2Proof.Machine

/-- One step. The agenda is the total order of host steps, reset steps and engine turns (20_memory.md R43); the latency
of a command is however many entries stand before the engine's turn (70_reset_and_hazards.md R171). With an empty
agenda an enabled commit is taken (weak fairness, R171), and an idle MD26 holds (60_exceptions.md R157). -/
def step (s : State) : Host.Outcome State Fault Refusal :=
  match s.agenda with
  | [] => engineStep s
  | ev :: rest => eventStep ev (s.withAgenda rest)

/-- `s` with the command word `w` accepted (60_exceptions.md R143) and the engine's turn next, so that the very next
step commits exactly that command. It stands for a host's write of `CMD` (notes/assumptions/7.md). -/
def State.withFetchWord (s : State) (nbits w : Nat) : State :=
  (s.accept (BitVec.ofNat 32 (w % 2 ^ nbits))).withAgenda (.engine :: s.agenda)

end Sys2Proof.Machine
end

