-- ==== Sys2Proof/Machine/HostProgram.lean ====
section
/-! DEFINITION. Host programs over the register window, the pseudo-instructions, and a host that runs such a program
beside MD26 (30_encoding.md R57, R58; 70_reset_and_hazards.md R171, R177). None of this is MD26 state: the host's
variables and its control flow are the host's own (R57). -/

namespace Sys2Proof.Machine

/-- The name of a label or of a host variable: one the program writes, or a fresh one of an expansion (30_encoding.md
R58). -/
inductive HostName where
  | named (text : List Char)
  | fresh (n : Nat)
deriving DecidableEq, Repr

/-- A host-side operation (30_encoding.md R57). -/
inductive HostStmt where
  /-- `WR <reg>, <value>`. -/
  | wr (a : WAddr) (w : Word)
  /-- `RD <reg> -> <var>`. -/
  | rd (a : WAddr) (v : HostName)
  /-- `<label>:`. -/
  | label (l : HostName)
  /-- `BNZ <var>[b], <label>`. -/
  | bnz (v : HostName) (b : Fin 32) (l : HostName)
deriving DecidableEq, Repr

/-- A host operation or a pseudo-instruction (30_encoding.md R57, R58). -/
inductive PseudoStmt where
  | plain (h : HostStmt)
  /-- `ISSUE <cmd>`. -/
  | issue (i : Instr)
  /-- `ISSUE .word <hex>`. -/
  | issueWord (w : Word)
  /-- `WAIT`. -/
  | wait
  /-- `CALL <cmd>`. -/
  | call (i : Instr)
  /-- `LOADM md, [v0, ..., vL-1]`; each value is a `WR`'s. -/
  | loadm (md : MNum) (vals : List Word)
  /-- `WRI <int>`. -/
  | wri (n : Int)
deriving DecidableEq, Repr

/-! ### Expansions (30_encoding.md R58) -/

/-- `<int>` "as a 32-bit two's-complement word", where it has one. An integer of 2^31 or more has none, so `WRI` refuses it,
however it is written: a DESIGN CHOICE for hexadecimal literals (notes/assumptions/13.md). -/
def intWord (n : Int) : Option Word := if -2 ^ 31 ≤ n ∧ n < 2 ^ 31 then some (BitVec.ofInt 32 n) else none

/-- `WR <reg>, <value>` for a register of the map. -/
def writeReg (r : Reg) (w : Word) : Option HostStmt := (regAddr r).map (fun a => .wr a w)

/-- `ISSUE <cmd>`: `WR CMD, enc(<cmd>)`. -/
def expandIssue (i : Instr) : Option (List HostStmt) := (assemble i).map (fun w => [.wr 0x004 w])

/-- `WAIT`: read STATUS until BUSY is 0, with a fresh label and variable. -/
def expandWait (k : Nat) : List HostStmt :=
  [.label (.fresh k), .rd 0x003 (.fresh k), .bnz (.fresh k) 0 (.fresh k)]

/-- `CALL <cmd>`: `ISSUE <cmd>` then `WAIT`. -/
def expandCall (k : Nat) (i : Instr) : Option (List HostStmt) := (expandIssue i).map (fun l => l ++ expandWait k)

/-- `WR STAGE[i], v` for the values of a list, from index `i` on; nothing where an index names no staging register
(notes/assumptions/13.md). -/
def expandStage : Nat → List Word → Option (List HostStmt)
  | _, [] => some []
  | i, v :: vs => (writeReg (.stage i) v).bind (fun h => (expandStage (i + 1) vs).map (h :: ·))

/-- The host operations a statement stands for; `k` makes its fresh names. Nothing where the assembler refuses an
operand. -/
def PseudoStmt.expand (k : Nat) : PseudoStmt → Option (List HostStmt)
  | .plain h => some [h]
  | .issue i => expandIssue i
  | .issueWord w => some [.wr 0x004 w]
  | .wait => some (expandWait k)
  | .call i => expandCall k i
  | .loadm md vals =>
    (expandStage 0 vals).bind (fun l => (expandCall k (.build md vals.length)).map (fun c => l ++ c))
  | .wri n => (intWord n).map (fun w => [.wr 0x005 w])

/-- A whole program, each statement with fresh names of its own. -/
def expandFrom : Nat → List PseudoStmt → Option (List HostStmt)
  | _, [] => some []
  | k, p :: ps => (p.expand k).bind (fun l => (expandFrom (k + 1) ps).map (fun m => l ++ m))

/-! ### A host beside MD26 -/

/-- The host: its program, its position and its variables. -/
structure HostState where
  prog : List HostStmt
  pos : Nat
  vars : List (HostName × Word)
deriving DecidableEq, Repr

/-- MD26 and one host. -/
structure System where
  hw : State
  host : HostState
deriving DecidableEq, Repr

/-- A host variable; one that nothing has set reads 0 (notes/assumptions/13.md). -/
def HostState.var (h : HostState) (v : HostName) : Word :=
  match h.vars.find? (fun p => p.1 == v) with
  | some p => p.2
  | none => 0

/-- Set a host variable. -/
def HostState.setVar (h : HostState) (v : HostName) (w : Word) : HostState :=
  { h with vars := (v, w) :: h.vars.filter (fun p => p.1 != v) }

/-- Go on to the next operation. -/
def HostState.advance (h : HostState) : HostState := { h with pos := h.pos + 1 }

/-- Go to a label; a label the program does not hold is its end (notes/assumptions/13.md). -/
def HostState.jump (h : HostState) (l : HostName) : HostState :=
  { h with pos := h.prog.findIdx (fun x => x == .label l) }

/-- The host performs its next operation (30_encoding.md R57). -/
def System.hostMove (y : System) : System :=
  match y.host.prog[y.host.pos]? with
  | none => y
  | some (.wr a w) => { hw := y.hw.hostWrite a w, host := y.host.advance }
  | some (.rd a v) => { hw := y.hw.hostRead a, host := (y.host.setVar v (y.hw.hostRead a).rdata).advance }
  | some (.label _) => { y with host := y.host.advance }
  | some (.bnz v b l) =>
    { y with host := if (y.host.var v).getLsbD b.val then y.host.jump l else y.host.advance }

/-- The engine takes its turn. -/
def System.engineMove (y : System) : System :=
  match engineStep y.hw with
  | .next t => { y with hw := t }
  | .fault _ => y
  | .refused _ => y

/-- A run under a schedule: `true` is a host operation, `false` an engine turn. They interleave freely
(70_reset_and_hazards.md R171). No reset falls in such a run: R177 says nothing of a run that a reset cuts short, and leaving
those runs out here is a DESIGN CHOICE (notes/assumptions/13.md). -/
def System.run : List Bool → System → System
  | [], y => y
  | b :: bs, y => System.run bs (if b then y.hostMove else y.engineMove)

/-- "A host program's run ends at the first state where": the host has performed its last operation, and `BUSY = 0`
(70_reset_and_hazards.md R177). -/
def System.ended (y : System) : Bool := decide (y.host.prog.length ≤ y.host.pos) && !y.hw.status.busy

end Sys2Proof.Machine
end

