-- ==== Sys2Proof/Safety.lean ====
section
/-! DEFINITION. The terms claims use: a run, its end, the host steps that keep the completion hazard's rule, and the
invariant of MD26's state. -/

namespace Sys2Proof.Machine

/-- `k` steps from a state. -/
def runFor : Nat → State → Outcome
  | 0, s => .next s
  | k + 1, s =>
    match step s with
    | .next t => runFor k t
    | .fault r => .fault r
    | .refused r => .refused r

/-- The state an outcome goes on in, if it does. -/
def nextOf : Outcome → Option State
  | .next s => some s
  | .fault _ => none
  | .refused _ => none

/-- The end of a run over the agenda: nothing is left to come, and no command is in flight (70_reset_and_hazards.md R177).
DESIGN CHOICE (notes/assumptions/3.md): R177 ends a run after the host's last operation and says nothing of a run that a
reset cuts short. Here the resets, and the engine turns while idle, that the agenda still lists are part of the run, so
it ends after them. -/
def State.ended (s : State) : Bool := s.agenda.isEmpty && !s.status.busy

/-- A host transaction that keeps the rule of the completion hazard: while a command is in flight the host writes
neither CMD nor OPERAND nor the staging window, and reads no register the command may write
(70_reset_and_hazards.md R170). -/
def keepsHazard (s : State) : HostOp → Bool
  | .read a => !s.unstable (decodeAddr s.cfg a)
  | .write a _ => !(s.status.busy && (a == 0x004 || a == 0x005 || inStagingWindow a))

/-- The next entry of the agenda keeps the rule; a bus access keeps it when what the bridge forwards does. -/
def State.safeStep (s : State) : Bool :=
  match s.agenda with
  | .host op :: _ => keepsHazard s op
  | .bus acc :: _ =>
    match bridge s.cfg acc with
    | some op => keepsHazard s op
    | none => true
  | .engine :: _ => true
  | .reset :: _ => true
  | [] => true

/-- Every one of the next `k` steps keeps the rule. -/
def SafeRun : Nat → State → Prop
  | 0, _ => True
  | k + 1, s => s.safeStep = true ∧ ∀ t, step s = .next t → SafeRun k t

/-- What holds of a matrix register between steps: its dimension is at most `N_MAX`, it has `N_MAX²` fields, each field
is a residue below 26, and the fields from `dim²` on are 0 (10_state.md R11, R12, R14). -/
structure MReg.Ok (c : Config) (m : MReg) : Prop where
  dim_le : m.dim ≤ c.nMax
  length_eq : m.e.length = c.slots
  residues : ∀ i, (elem m.e i).toNat < 26
  padding : ∀ i, m.dim * m.dim ≤ i → elem m.e i = 0

/-- What holds of MD26's state between steps: every matrix register is as it must be; the staging array and `VEC_OUT`
have their lengths; `SCALAR_OUT` and every word of `VEC_OUT` hold a residue or a dimension, zero-extended; and a
command in flight has cleared DONE (10_state.md R11 to R18, R20; 60_exceptions.md R143). -/
structure State.Inv (s : State) : Prop where
  matrices : ∀ k, (s.matrix k).Ok s.cfg
  stage_length : s.stage.length = s.cfg.slots
  vecOut_length : s.vecOut.length = s.cfg.nMax
  scalarOut_lt : s.scalarOut.toNat < 26
  vecOut_lt : ∀ j, (s.vecOut.getD j 0).toNat < 26
  busy_not_done : s.status.busy = true → s.status.done = false

end Sys2Proof.Machine
end

