-- ==== Sys2Proof/Certificates/Slice0/Obligations.lean ====
section
/-! DEFINITION. The statements about MD26 for the provers. Each docstring names the rule of spec/ it formalises. -/

namespace Sys2Proof.Claims

open Sys2Proof.Machine

/-! ### Words the statements share -/

/-- `MD`, `MS` and `IMM` of a word, by arithmetic (30_encoding.md R51). -/
def mdOf (w : Word) : MNum := Fin.ofNat 4 (w.toNat / 16)
def msOf (w : Word) : MNum := Fin.ofNat 4 (w.toNat / 64)
def immOf (w : Word) : Nat := w.toNat / 256 % 256

/-- The opcode table (30_encoding.md R53): match, mask, and the command with the operands of a word. -/
def opcodeRows : List (Word × Word × (Word → Instr)) :=
  [(0x00000000, 0xFFFFFFFF, fun _ => .nop),
   (0x00000001, 0xFFFFFFFF, fun _ => .norm),
   (0x00000002, 0xFFFFFFFF, fun _ => .rinv),
   (0x00000003, 0xFFFF00CF, fun w => .build (mdOf w) (immOf w)),
   (0x00000004, 0xFFFFFF3F, fun w => .det (msOf w)),
   (0x00000005, 0xFFFFFF0F, fun w => .inv (mdOf w) (msOf w)),
   (0x00000006, 0xFFFF003F, fun w => .col (msOf w) (immOf w)),
   (0x00000007, 0xFFFFFF3F, fun w => .dim (msOf w))]

/-- A word with this `OP` is illegal where `bad` holds of its fields (30_encoding.md R54). -/
def illegalWhere (op : Nat) (bad : Word → Prop) : Prop :=
  ∀ w : Word, w.toNat % 16 = op → bad w → ∃ r, decodeCmd w = .error r

/-- The fields `MD`, `MS`, `IMM` and `RSV` of a word that are not zero (30_encoding.md R50). -/
def mdNonzero (w : Word) : Prop := w.toNat / 16 % 4 ≠ 0
def msNonzero (w : Word) : Prop := w.toNat / 64 % 4 ≠ 0
def immNonzero (w : Word) : Prop := w.toNat / 256 % 256 ≠ 0
def rsvNonzero (w : Word) : Prop := w.toNat / 65536 ≠ 0

/-- STATUS as the commit of a command leaves it: BUSY 0, DONE 1, OVR as it was, and the error code
(60_exceptions.md R144). -/
def endedStatus (s : State) (e : ErrCode) : Status :=
  { busy := false, done := true, ovr := s.status.ovr, err := e }

/-- The host transaction that the next step performs, if the host takes it: at the port, or forwarded by the bridge. The
agenda that says so is the model's (notes/assumptions/3.md). -/
def nextOp (s : State) : Option HostOp :=
  match s.agenda with
  | .host op :: _ => some op
  | .bus acc :: _ => bridge s.cfg acc
  | .engine :: _ => none
  | .reset :: _ => none
  | [] => none

/-- The next step is the commit of the command in flight (notes/assumptions/3.md). -/
def commitIsNext (s : State) : Prop :=
  s.status.busy = true ∧ (s.agenda = [] ∨ ∃ rest, s.agenda = .engine :: rest)

/-- The next step is a reset (notes/assumptions/3.md). -/
def resetIsNext (s : State) : Prop := ∃ rest, s.agenda = .reset :: rest

/-- The n×n integer matrix that a flat sequence of residues holds (00_scope.md R9). -/
def asMatrix (n : Nat) (e : List Residue) : Matrix (Fin n) (Fin n) ℤ :=
  Matrix.of (fun r c => ((elem e (r.val * n + c.val)).toNat : ℤ))

/-- Two integers are equal mod 26 at every entry. -/
def sameMod26 {n : Nat} (A B : Matrix (Fin n) (Fin n) ℤ) : Prop := ∀ r c, A r c % 26 = B r c % 26

/-- The address of a register of the map, and which registers an `N_MAX` implements (20_memory.md R32). -/
def addressOf : Reg → Nat
  | .id => 0x000
  | .param => 0x001
  | .ctrl => 0x002
  | .status => 0x003
  | .cmd => 0x004
  | .operand => 0x005
  | .scalarOut => 0x006
  | .mdim k => 0x008 + k.val
  | .stage i => 0x040 + i
  | .vecOut j => 0x080 + j
  | .melem k i => 0x100 + 64 * k.val + i
  | .reserved => 0x007

def implemented (c : Config) : Reg → Prop
  | .stage i => i < c.nMax * c.nMax
  | .vecOut j => j < c.nMax
  | .melem _ i => i < c.nMax * c.nMax
  | .reserved => False
  | .id => True
  | .param => True
  | .ctrl => True
  | .status => True
  | .cmd => True
  | .operand => True
  | .scalarOut => True
  | .mdim _ => True

/-- The addresses whose reads are any value while the command in `CMD` is in flight (70_reset_and_hazards.md R172). -/
def destination (s : State) (a : Nat) : Prop :=
  match decodeCmd s.cmd with
  | .ok (.build md _) =>
    a = 0x008 + md.val ∨ (0x100 + 64 * md.val ≤ a ∧ a < 0x100 + 64 * md.val + s.cfg.nMax * s.cfg.nMax)
  | .ok (.inv md _) =>
    a = 0x008 + md.val ∨ (0x100 + 64 * md.val ≤ a ∧ a < 0x100 + 64 * md.val + s.cfg.nMax * s.cfg.nMax)
  | .ok (.det _) => a = 0x006
  | .ok .norm => a = 0x006
  | .ok .rinv => a = 0x006
  | .ok (.dim _) => a = 0x006
  | .ok (.col _ _) => 0x080 ≤ a ∧ a < 0x080 + s.cfg.nMax
  | .ok .nop => False
  | .error _ => False

/-- The one error the commit of the word in `CMD` records, by the order of 60_exceptions.md R148; the conditions are
those of R140. -/
def firstError (s : State) : ErrCode :=
  match decodeCmd s.cmd with
  | .error _ => .illegal
  | .ok .nop => .ok
  | .ok .norm => .ok
  | .ok .rinv => .ok
  | .ok (.build _ len) =>
    if Nat.sqrt len * Nat.sqrt len ≠ len then .shape
    else if len = 0 ∨ s.cfg.nMax < Nat.sqrt len then .dimension
    else .ok
  | .ok (.det ms) => if (s.matrix ms).dim = 0 then .empty else .ok
  | .ok (.inv _ ms) =>
    if (s.matrix ms).dim = 0 then .empty
    else if Int.gcd (val (det (s.matrix ms).dim (s.matrix ms).e)) 26 ≠ 1 then .singular
    else .ok
  | .ok (.col ms j) =>
    if (s.matrix ms).dim = 0 then .empty else if (s.matrix ms).dim ≤ j then .index else .ok
  | .ok (.dim ms) => if (s.matrix ms).dim = 0 then .empty else .ok

/-- Entry `i` of the result of INV on an n×n matrix whose determinant has the inverse `d` (43_inverse.md R102, R103,
R105). -/
def inverseEntry (n : Nat) (e : List Residue) (d : Residue) (i : Nat) : Residue :=
  if n = 1 then d
  else if n = 2 then
    if i = 0 then normalize26 (val (elem e 3) * val d)
    else if i = 1 then normalize26 (-val (elem e 1) * val d)
    else if i = 2 then normalize26 (-val (elem e 2) * val d)
    else normalize26 (val (elem e 0) * val d)
  else normalize26 ((-1) ^ i * val (det (n - 1) (minor (transpose e n) n (i / n) (i % n))) * val d)

/-- The determinant by the same expansion with no reduction at all (42_determinant.md R92). -/
def detExact : Nat → List Residue → ℤ
  | 0, _ => 0
  | 1, e => val (elem e 0)
  | 2, e => val (elem e 0) * val (elem e 3) - val (elem e 1) * val (elem e 2)
  | n + 3, e =>
    ((List.range (n + 3)).map (fun i => (-1) ^ i * val (elem e i) * detExact (n + 2) (minor e (n + 3) 0 i))).sum

end Sys2Proof.Claims

open Sys2Proof Sys2Proof.Machine Sys2Proof.Claims

/-! ### Encoding -/

/-- Words of every command decode to the command they stand for, and words with a stray bit are illegal
(95_test_vectors.md, V-DECODE). -/
def Obligations.SampleWordsDecode : Prop :=
  decodeCmd 0x00000000 = .ok .nop ∧ decodeCmd 0x00000001 = .ok .norm ∧ decodeCmd 0x00000002 = .ok .rinv ∧
  decodeCmd 0x00000403 = .ok (.build 0 4) ∧ decodeCmd 0x0000FF33 = .ok (.build 3 255) ∧
  decodeCmd 0x000000C4 = .ok (.det 3) ∧ decodeCmd 0x00000015 = .ok (.inv 1 0) ∧ decodeCmd 0x000000B5 = .ok (.inv 3 2) ∧
  decodeCmd 0x0000FF86 = .ok (.col 2 255) ∧ decodeCmd 0x000000C7 = .ok (.dim 3) ∧
  decodeCmd 0x00000010 = .error .fieldNonzero ∧ decodeCmd 0x00000443 = .error .fieldNonzero ∧
  decodeCmd 0x00000014 = .error .fieldNonzero ∧ decodeCmd 0x00000105 = .error .fieldNonzero ∧
  decodeCmd 0x00000008 = .error .reservedOpcode ∧ decodeCmd 0x00010000 = .error .rsvNonzero

/-- Decoding the word of a command gives the command, for every operand the encoding admits (30_encoding.md R50,
R56). -/
def Obligations.DecodeOfEncode : Prop := ∀ i : Instr, i.wf = true → decodeCmd (encode i) = .ok i

/-- A legal word is the word of the command it decodes to, so a command has one word only (30_encoding.md R54, R55;
92_eei_decisions.md D16). -/
def Obligations.EncodeOfDecode : Prop := ∀ (w : Word) (i : Instr), decodeCmd w = .ok i → i.wf = true ∧ encode i = w

/-- A word selects a row of the opcode table exactly when it matches under the row's mask; its operands are the plain
unsigned slices; and at most one row matches (30_encoding.md R51, R53). -/
def Obligations.OpcodeTableSelectsByMask : Prop :=
  (∀ (w : Word) (i : Instr), decodeCmd w = .ok i ↔ ∃ row ∈ opcodeRows, w &&& row.2.1 = row.1 ∧ row.2.2 w = i) ∧
  ∀ (w : Word) (j k : Fin opcodeRows.length),
    w &&& opcodeRows[j].2.1 = opcodeRows[j].1 → w &&& opcodeRows[k].2.1 = opcodeRows[k].1 → j = k

/-- A word is legal exactly when `OP` is 0 to 7, `RSV` is 0 and every field marked "0" for the opcode is zero
(30_encoding.md R54, R55). -/
def Obligations.LegalWordsExactly : Prop :=
  ∀ w : Word, (∃ i, decodeCmd w = .ok i) ↔
    w.toNat / 65536 = 0 ∧ w.toNat % 16 ≤ 7 ∧
    (w.toNat % 16 ∈ [0, 1, 2, 4, 6, 7] → w.toNat / 16 % 4 = 0) ∧
    (w.toNat % 16 ∈ [0, 1, 2, 3] → w.toNat / 64 % 4 = 0) ∧
    (w.toNat % 16 ∈ [0, 1, 2, 4, 5, 7] → w.toNat / 256 % 256 = 0)

/-- The assembler writes the words of the syntax table and refuses an immediate outside 0..255 (30_encoding.md R56). -/
def Obligations.AssemblerWordsAndRefusals : Prop :=
  assemble .nop = some 0x00000000 ∧ assemble .norm = some 0x00000001 ∧ assemble .rinv = some 0x00000002 ∧
  (∀ (md : MNum) (len : Nat), assemble (.build md len) =
    if len ≤ 255 then some (0x3#32 ||| BitVec.ofNat 32 md.val <<< 4 ||| BitVec.ofNat 32 len <<< 8) else none) ∧
  (∀ ms : MNum, assemble (.det ms) = some (0x4#32 ||| BitVec.ofNat 32 ms.val <<< 6)) ∧
  (∀ md ms : MNum, assemble (.inv md ms) =
    some (0x5#32 ||| BitVec.ofNat 32 md.val <<< 4 ||| BitVec.ofNat 32 ms.val <<< 6)) ∧
  (∀ (ms : MNum) (j : Nat), assemble (.col ms j) =
    if j ≤ 255 then some (0x6#32 ||| BitVec.ofNat 32 ms.val <<< 6 ||| BitVec.ofNat 32 j <<< 8) else none) ∧
  ∀ ms : MNum, assemble (.dim ms) = some (0x7#32 ||| BitVec.ofNat 32 ms.val <<< 6)

/-- The expansions of the pseudo-instructions into host writes and reads, for every command the assembler accepts,
every list of at most 64 words for LOADM and every integer of 32 bits for WRI (30_encoding.md R58; the fresh names are
the model's, notes/assumptions/13.md). -/
def Obligations.PseudoInstructionExpansions : Prop :=
  ∀ (k : Nat) (x : HostName), x = .fresh k →
    (∀ i w, assemble i = some w →
      (PseudoStmt.issue i).expand k = some [.wr 0x004 w] ∧
      (PseudoStmt.call i).expand k = some [.wr 0x004 w, .label x, .rd 0x003 x, .bnz x 0 x]) ∧
    (∀ w, (PseudoStmt.issueWord w).expand k = some [.wr 0x004 w]) ∧
    PseudoStmt.wait.expand k = some [.label x, .rd 0x003 x, .bnz x 0 x] ∧
    (∀ n : ℤ, -2147483648 ≤ n → n ≤ 2147483647 → (PseudoStmt.wri n).expand k = some [.wr 0x005 (BitVec.ofInt 32 n)]) ∧
    ∀ (md : MNum) (vals : List Word), vals.length ≤ 64 →
      (PseudoStmt.loadm md vals).expand k = some
        (vals.mapIdx (fun i v => .wr (BitVec.ofNat 9 (0x040 + i)) v) ++
          [.wr 0x004 (encode (.build md vals.length)), .label x, .rd 0x003 x, .bnz x 0 x])

/-! ### The life of a command -/

/-- A host write of `CMD` while BUSY = 0 accepts the word, sets BUSY, clears DONE and changes nothing else; while
BUSY = 1 it is no accept, and changes nothing but OVR (60_exceptions.md R143). -/
def Obligations.AcceptWritesCmdBusyDone : Prop :=
  ∀ (s : State) (w : Word),
    (s.status.busy = false →
      s.hostWrite 0x004 w = { s with cmd := w, status := { s.status with busy := true, done := false } }) ∧
    (s.status.busy = true → s.hostWrite 0x004 w = { s with status := { s.status with ovr := true } })

/-- When a command is in flight and the engine has its turn (or nothing else is left to come), one step is the commit
of the command that `CMD` decodes to; and a command word placed for the next step is the one that runs
(60_exceptions.md R144; the agenda is the model's, notes/assumptions/3.md and 7.md). -/
def Obligations.StepRunsDecodedCommand : Prop :=
  (∀ (s : State) (i : Instr), s.status.busy = true → decodeCmd s.cmd = .ok i →
    (∀ rest, s.agenda = .engine :: rest → step s = exec i { s with agenda := rest }) ∧
    (s.agenda = [] → step s = exec i s)) ∧
  ∀ (s : State) (w : Word) (i : Instr), decodeCmd w = .ok i →
    step (s.withFetchWord 32 w.toNat) =
      exec i { s with cmd := w, status := { s.status with busy := true, done := false } }

/-- One entry of the agenda is one step of its agent: a host transaction, a bus access through the bridge, or a reset
(10_state.md R10, 20_memory.md R31, R43; the agenda is the model's, notes/assumptions/3.md). -/
def Obligations.EachAgendaEntryIsOneStep : Prop :=
  ∀ (s : State) (rest : List Event),
    (∀ a, s.agenda = .host (.read a) :: rest → step s = .next (({ s with agenda := rest } : State).hostRead a)) ∧
    (∀ a w, s.agenda = .host (.write a w) :: rest →
      step s = .next (({ s with agenda := rest } : State).hostWrite a w)) ∧
    (∀ acc, s.agenda = .bus acc :: rest → step s = .next (({ s with agenda := rest } : State).busStep acc)) ∧
    (s.agenda = .reset :: rest → step s = .next ({ s with agenda := rest } : State).resetStep)

/-- The commit of an illegal word records ILLEGAL and writes nothing but STATUS (30_encoding.md R54;
60_exceptions.md R144, R145; that the engine's turn is next on the agenda, and that an empty agenda gives it the turn, is
the model's, notes/assumptions/3.md). -/
def Obligations.IllegalWordCommitsIllegal : Prop :=
  ∀ (s : State) (r : Illegal), s.status.busy = true → decodeCmd s.cmd = .error r →
    (∀ rest, s.agenda = .engine :: rest → step s = .next { s with agenda := rest, status := endedStatus s .illegal }) ∧
    (s.agenda = [] → step s = .next { s with status := endedStatus s .illegal })

/-- Every command goes on to a next state in which BUSY is 0 and DONE is 1, and in which OVR, `CMD`, `OPERAND`, `STAGE`,
`CTRL`, the configuration and the model's own fields are as before (60_exceptions.md R144; 10_state.md R15, R16). -/
def Obligations.CommitEndsEveryCommand : Prop :=
  ∀ (i : Instr) (s : State), ∃ t, exec i s = .next t ∧
    t.status.busy = false ∧ t.status.done = true ∧ t.status.ovr = s.status.ovr ∧
    t.cmd = s.cmd ∧ t.operand = s.operand ∧ t.stage = s.stage ∧ t.ctrl = s.ctrl ∧
    t.cfg = s.cfg ∧ t.agenda = s.agenda ∧ t.rdata = s.rdata ∧ t.draws = s.draws

/-- "A failed command writes nothing but `STATUS`. The accept has already written `CMD`" (60_exceptions.md R145): of every
command word, legal or not. -/
def Obligations.FailedCommandWritesOnlyStatus : Prop :=
  (∀ s t : State, commitStep s = .next t → t.status.err ≠ .ok → t = { s with status := t.status }) ∧
  ∀ (s : State) (w : Word), s.status.busy = false → (s.hostWrite 0x004 w).cmd = w

/-- The commit records the first error in the order of 60_exceptions.md R148, and only that one. -/
def Obligations.FirstErrorIsRecorded : Prop :=
  ∀ s : State, ∃ t, commitStep s = .next t ∧ t.status.err = firstError s

/-! ### The register window -/

/-- A word address selects a register of the map exactly when it is the register's address and `N_MAX` implements it;
every other address is reserved (20_memory.md R32). -/
def Obligations.RegisterMap : Prop :=
  ∀ (c : Config) (a : WAddr),
    (∀ r, r ≠ .reserved → (decodeAddr c a = r ↔ a.toNat = addressOf r ∧ implemented c r)) ∧
    (decodeAddr c a = .reserved ↔ ∀ r, implemented c r → a.toNat ≠ addressOf r)

/-- `ID` reads 0x4D443236 and `PARAM` reads its fields NMAX, NMREG and REV, always; writes of them are ignored
(10_state.md R22, R23). -/
def Obligations.IdAndParamAreHardwired : Prop :=
  ∀ (s : State) (w : Word),
    (s.hostRead 0x000).rdata = 0x4D443236 ∧ s.hostWrite 0x000 w = s ∧
    (s.hostRead 0x001).rdata.toNat % 16 = s.cfg.nMax ∧ (s.hostRead 0x001).rdata.toNat / 16 % 16 = 4 ∧
    (s.hostRead 0x001).rdata.toNat / 256 % 256 = 1 ∧ (s.hostRead 0x001).rdata.toNat / 65536 = 0 ∧
    s.hostWrite 0x001 w = s

/-- `CTRL`: it reads IE in bit 0 and zeros above; a write writes IE and ignores the other bits; IE is 0 at reset; and
when it is 1, `irq` follows DONE (10_state.md R19). -/
def Obligations.ControlRegister : Prop :=
  (∀ (s : State) (w : Word),
    (s.hostRead 0x002).rdata = (if s.ctrl.ie then 1 else 0) ∧
    s.hostWrite 0x002 w = { s with ctrl := { ie := w.getLsbD 0 } } ∧
    (s.ctrl.ie = true → s.irq = s.status.done)) ∧
  State.reset.ctrl.ie = false

/-- `STATUS` reads BUSY, DONE, OVR and ERR in bits 0, 1, 2 and 7:4 and zeros elsewhere, exactly and at any time; a write
clears DONE where bit 1 is 1 and OVR where bit 2 is 1, and changes nothing else, also while BUSY = 1; the
codes of ERR are 0 to 6 (10_state.md R20; 60_exceptions.md R140). -/
def Obligations.StatusRegister : Prop :=
  (ErrCode.ok.code = 0 ∧ ErrCode.shape.code = 1 ∧ ErrCode.singular.code = 2 ∧ ErrCode.dimension.code = 3 ∧
    ErrCode.empty.code = 4 ∧ ErrCode.index.code = 5 ∧ ErrCode.illegal.code = 6) ∧
  ∀ (s : State) (w : Word),
    (s.hostRead 0x003).rdata.toNat =
      (if s.status.busy then 1 else 0) + (if s.status.done then 2 else 0) + (if s.status.ovr then 4 else 0) +
        16 * s.status.err.code.toNat ∧
    s.hostWrite 0x003 w = { s with status := { s.status with
      done := if w.getLsbD 1 then false else s.status.done
      ovr := if w.getLsbD 2 then false else s.status.ovr } }

/-- A read of a reserved address returns 0; a write to one changes no state, except that a write while BUSY = 1 to any
address of the staging window, implemented or not, sets OVR; neither raises an error (20_memory.md R33). -/
def Obligations.ReservedAddresses : Prop :=
  ∀ (s : State) (a : WAddr) (w : Word),
    (decodeAddr s.cfg a = .reserved →
      s.hostRead a = { s with rdata := 0 } ∧
      (¬(s.status.busy = true ∧ 0x040 ≤ a.toNat ∧ a.toNat ≤ 0x07F) → s.hostWrite a w = s)) ∧
    (s.status.busy = true → 0x040 ≤ a.toNat → a.toNat ≤ 0x07F →
      s.hostWrite a w = { s with status := { s.status with ovr := true } })

/-- A write to a read-only register changes no state and does not set OVR (20_memory.md R34). -/
def Obligations.ReadOnlyWritesIgnored : Prop :=
  ∀ (s : State) (a : WAddr) (w : Word),
    (decodeAddr s.cfg a = .id ∨ decodeAddr s.cfg a = .param ∨ decodeAddr s.cfg a = .scalarOut ∨
      (∃ k, decodeAddr s.cfg a = .mdim k) ∨ (∃ j, decodeAddr s.cfg a = .vecOut j) ∨
      ∃ k i, decodeAddr s.cfg a = .melem k i) →
    s.hostWrite a w = s

/-- While BUSY = 0, a write of `OPERAND` or of an implemented staging word stores the word there, raw, and changes
nothing else (20_memory.md R36; 10_state.md R15, R16). -/
def Obligations.IdleInputWrites : Prop :=
  ∀ (s : State) (w : Word), s.status.busy = false →
    s.hostWrite 0x005 w = { s with operand := w } ∧
    ∀ i, i < s.cfg.nMax * s.cfg.nMax →
      s.hostWrite (BitVec.ofNat 9 (0x040 + i)) w = { s with stage := s.stage.set i w }

/-- A write while BUSY = 1 to `CMD`, `OPERAND` or any address of the staging window changes nothing but OVR, which
becomes 1, and the commit of the command in flight is the same with OVR set; `CTRL` and `STATUS` writes act as normal and
never set OVR; and OVR stays 1 until the host writes `STATUS` with bit 2 = 1, or until reset (60_exceptions.md R147). -/
def Obligations.OverrunDiscardsTheWrite : Prop :=
  (∀ (s : State) (a : WAddr) (w : Word), s.status.busy = true →
    (a = 0x004 ∨ a = 0x005 ∨ (0x040 ≤ a.toNat ∧ a.toNat ≤ 0x07F) →
      s.hostWrite a w = { s with status := { s.status with ovr := true } }) ∧
    (s.hostWrite 0x002 w).ctrl.ie = w.getLsbD 0 ∧ (s.hostWrite 0x002 w).status = s.status ∧
    (s.hostWrite 0x003 w).status.ovr = (s.status.ovr && !w.getLsbD 2) ∧
    (s.hostWrite 0x003 w).status.done = (s.status.done && !w.getLsbD 1)) ∧
  (∀ s t : State, commitStep s = .next t →
    commitStep { s with status := { s.status with ovr := true } } =
      .next { t with status := { t.status with ovr := true } }) ∧
  ∀ (ev : Event) (s t : State), eventStep ev s = .next t → s.status.ovr = true → t.status.ovr = false →
    ev = .reset ∨ ∃ w, w.getLsbD 2 = true ∧
      (ev = .host (.write 0x003 w) ∨ ∃ acc, ev = .bus acc ∧ bridge s.cfg acc = some (.write 0x003 w))

/-- A read of any address changes no architectural state; and a read gives the same word again after any reads in
between, unless it is of a register the in-flight command may write (20_memory.md R35). -/
def Obligations.ReadsHaveNoSideEffect : Prop :=
  (∀ (s : State) (a : WAddr),
    s.hostRead a = { s with rdata := (s.hostRead a).rdata, draws := (s.hostRead a).draws }) ∧
  ∀ (s : State) (a : WAddr) (between : List WAddr), ¬(s.status.busy = true ∧ destination s a.toNat) →
    ((between.foldl (fun t b => t.hostRead b) (s.hostRead a)).hostRead a).rdata = (s.hostRead a).rdata

/-- While BUSY = 1, a read of a register the in-flight command may write takes a free value, and every other read is
exact; while BUSY = 0 every read is exact. The word that an exact read gives is, at the address of each register, that
register's own field of the state, zero-extended (70_reset_and_hazards.md R172; 20_memory.md R31, R32; 10_state.md R15 to
R18, R21, R24; the free value is the uninterpreted constant of notes/assumptions/4.md). -/
def Obligations.ReadsWhileBusy : Prop :=
  (∀ (s : State) (a : WAddr),
    (s.status.busy = true → destination s a.toNat →
      s.hostRead a = { s with rdata := Config.freeRead s.draws, draws := s.draws + 1 }) ∧
    (¬(s.status.busy = true ∧ destination s a.toNat) → s.hostRead a = { s with rdata := s.peek a })) ∧
  ∀ s : State,
    s.peek 0x004 = s.cmd ∧ s.peek 0x005 = s.operand ∧ s.peek 0x006 = s.scalarOut ∧
    (∀ k : MNum, s.peek (BitVec.ofNat 9 (0x008 + k.val)) = BitVec.ofNat 32 s.mreg[k.val].dim) ∧
    (∀ i, i < s.cfg.nMax * s.cfg.nMax → s.peek (BitVec.ofNat 9 (0x040 + i)) = s.stage.getD i 0) ∧
    (∀ j, j < s.cfg.nMax → s.peek (BitVec.ofNat 9 (0x080 + j)) = s.vecOut.getD j 0) ∧
    ∀ (k : MNum) (i : Nat), i < s.cfg.nMax * s.cfg.nMax →
      s.peek (BitVec.ofNat 9 (0x100 + 64 * k.val + i)) = BitVec.ofNat 32 (s.mreg[k.val].e.getD i 0).toNat

/-- A whole aligned word access of the platform bus inside the window is the port's transaction at word address
`WADDR = (byte offset) / 4`, with little-endian lanes for the data written and read; every other access is not forwarded
and leaves MD26 as it is: a misaligned one, one narrower than a word, and one outside the window (20_memory.md R30, R38,
R39, R41). That an access wider than a word is not forwarded is the model's choice, and that the base address is a multiple
of 4 is its inference (notes/assumptions/6.md). -/
def Obligations.BridgeForwardsWholeWords : Prop :=
  (∀ (s : State) (a : WAddr) (w : Word), s.cfg.md26Base % 4 = 0 →
    s.busStep (.read (s.cfg.md26Base + 4 * a.toNat) 4) = s.hostRead a ∧
    s.busStep (.write (s.cfg.md26Base + 4 * a.toNat)
      [w.extractLsb' 0 8, w.extractLsb' 8 8, w.extractLsb' 16 8, w.extractLsb' 24 8]) = s.hostWrite a w) ∧
  (∀ (w : Word) (k : Nat), k < 4 → (byteLane w k).toNat = w.toNat / 256 ^ k % 256) ∧
  ∀ (s : State) (addr size : Nat) (bytes : List (BitVec 8)),
    (addr % 4 ≠ 0 ∨ size ≠ 4 ∨ addr < s.cfg.md26Base ∨ s.cfg.md26Base + 2048 ≤ addr →
      s.busStep (.read addr size) = s) ∧
    (addr % 4 ≠ 0 ∨ bytes.length ≠ 4 ∨ addr < s.cfg.md26Base ∨ s.cfg.md26Base + 2048 ≤ addr →
      s.busStep (.write addr bytes) = s)

/-! ### The machine as a whole

Where a statement says which agent takes the next step, it reads the agenda, the model's own field
(notes/assumptions/3.md). -/

/-- Reset sets every piece of state to its reset value, whatever the state was, with no command in flight, `irq` 0 and
`ID` and `PARAM` as ever; the state the model starts in has the same values (10_state.md R27). -/
def Obligations.ResetSetsEveryPieceOfState : Prop :=
  ∀ s t : State, t = s.resetStep ∨ t = State.reset →
    (∀ k, (t.matrix k).dim = 0 ∧ (t.matrix k).e = List.replicate (t.cfg.nMax * t.cfg.nMax) 0) ∧
    t.stage = List.replicate (t.cfg.nMax * t.cfg.nMax) 0 ∧ t.operand = 0 ∧ t.scalarOut = 0 ∧
    t.vecOut = List.replicate t.cfg.nMax 0 ∧ t.ctrl.ie = false ∧ t.status.busy = false ∧ t.status.done = false ∧
    t.status.ovr = false ∧ t.status.err = .ok ∧ (t.hostRead 0x002).rdata = 0 ∧ (t.hostRead 0x003).rdata = 0 ∧
    t.cmd = 0 ∧ t.irq = false ∧ (t.hostRead 0x000).rdata = 0x4D443236 ∧
    (t.hostRead 0x001).rdata.toNat = 0x140 + t.cfg.nMax ∧ (t = s.resetStep → t.cfg = s.cfg)

/-- The invariant of MD26's state holds right after reset, for every configuration (10_state.md R11 to R18). -/
def Obligations.ResetMeetsInvariant : Prop := ∀ c : Config, (State.resetWith c).Inv

/-- Every step keeps the invariant: dimensions at most `N_MAX`, residues below 26, zero padding, the lengths of the
arrays, zero-extended results, and DONE clear while a command is in flight (10_state.md R11 to R18). -/
def Obligations.EveryStepKeepsInvariant : Prop := ∀ s t : State, s.Inv → step s = .next t → t.Inv

/-- A matrix register changes only by the commit of a BUILD or an INV that names it as destination, or by reset
(10_state.md R13; which step is next is read from the model's agenda, notes/assumptions/3.md). -/
def Obligations.MatrixChangesOnlyByBuildInvReset : Prop :=
  ∀ (s t : State) (k : MNum), step s = .next t → t.matrix k ≠ s.matrix k →
    resetIsNext s ∨
    (commitIsNext s ∧ ((∃ len, decodeCmd s.cmd = .ok (.build k len)) ∨ ∃ ms, decodeCmd s.cmd = .ok (.inv k ms)))

/-- BUSY rises only at the accept of the word a host writes to `CMD`, and falls only at a commit or a reset
(60_exceptions.md R143, R144, R157; 20_memory.md R44; which step is next is read from the model's agenda,
notes/assumptions/3.md). -/
def Obligations.BusyChangesOnlyAtAcceptCommitReset : Prop :=
  ∀ s t : State, step s = .next t →
    (s.status.busy = false → t.status.busy = true → ∃ w, nextOp s = some (.write 0x004 w) ∧ t.cmd = w) ∧
    (s.status.busy = true → t.status.busy = false → commitIsNext s ∨ resetIsNext s)

/-- With BUSY = 0 MD26 does nothing of its own: with nothing to come, all state holds, and an engine turn changes
nothing but the agenda (60_exceptions.md R157; 70_reset_and_hazards.md R161; the agenda is the model's, and so is what
an empty one does, notes/assumptions/3.md). -/
def Obligations.IdleStateHolds : Prop :=
  ∀ s : State, s.status.busy = false →
    (s.agenda = [] → step s = .next s) ∧
    ∀ rest, s.agenda = .engine :: rest → step s = .next { s with agenda := rest }

/-- While a command is in flight, no step but a reset changes `CMD`, `OPERAND` or `STAGE`, so the command runs on the
inputs it was accepted with (10_state.md R26; 60_exceptions.md R147; which step is next is read from the
model's agenda, notes/assumptions/3.md). -/
def Obligations.InputsHeldWhileBusy : Prop :=
  ∀ s t : State, step s = .next t → s.status.busy = true → ¬resetIsNext s →
    t.cmd = s.cmd ∧ t.operand = s.operand ∧ t.stage = s.stage

/-- `irq` is DONE and IE as the host reads them, and it rises only at a commit or where the host writes 1 to
`CTRL.IE` (10_state.md R28; 60_exceptions.md R150; which step is next is read from the model's agenda,
notes/assumptions/3.md). -/
def Obligations.IrqRisesOnlyAtCommitOrEnable : Prop :=
  (∀ s : State, s.irq = ((s.hostRead 0x003).rdata.getLsbD 1 && (s.hostRead 0x002).rdata.getLsbD 0)) ∧
  ∀ s t : State, step s = .next t → s.irq = false → t.irq = true →
    commitIsNext s ∨ ∃ w, nextOp s = some (.write 0x002 w) ∧ w.getLsbD 0 = true

/-- From every state, every step goes on: no behaviour stops MD26 (60_exceptions.md R146). -/
def Obligations.EveryStepGoesOn : Prop := ∀ s : State, ∃ t, step s = .next t

/-- A run ends: after the entries of its agenda and one more step, nothing is left to come and no command is in flight
(70_reset_and_hazards.md R171, R177; that an empty agenda gives the engine its turn is the model's form of weak
fairness, and that a run goes on to the end of its agenda, past a reset listed there, is the model's choice where R177
says nothing: both are notes/assumptions/3.md). -/
def Obligations.EveryRunEnds : Prop :=
  ∀ s : State, ∃ t, runFor (s.agenda.length + 1) s = .next t ∧ t.ended = true

/-- A host that keeps the rule of the completion hazard never overruns and never reads a free value
(70_reset_and_hazards.md R170, R175; the steps of a run are those of the model's agenda, notes/assumptions/3.md). -/
def Obligations.SafeRunsNeverOverrun : Prop :=
  ∀ (k : Nat) (s t : State), SafeRun k s → s.status.ovr = false → runFor k s = .next t →
    t.status.ovr = false ∧ t.draws = s.draws

/-! ### What each command does -/

/-- NOP writes STATUS and nothing else; its word is 0 only, and a word with `OP = 0` and any other bit set is illegal
(45_control.md R130). -/
def Obligations.NopWritesOnlyStatus : Prop :=
  (∀ s : State, exec .nop s = .next { s with status := endedStatus s .ok }) ∧
  (∀ w : Word, decodeCmd w = .ok .nop ↔ w = 0x00000000) ∧ illegalWhere 0 (fun w => w ≠ 0x00000000)

/-- NORM leaves `OPERAND mod 26` in `SCALAR_OUT`, changes nothing else but STATUS, and always succeeds; its word is 1
only, and any other word with that opcode is illegal (40_modular_arithmetic.md R73). -/
def Obligations.NormResult : Prop :=
  (∀ s : State, exec .norm s = .next { s with
    scalarOut := BitVec.ofNat 32 (s.operand.toInt % 26).toNat
    status := endedStatus s .ok }) ∧
  (∀ w : Word, decodeCmd w = .ok .norm ↔ w = 0x00000001) ∧ illegalWhere 1 (fun w => w ≠ 0x00000001)

/-- RINV leaves in `SCALAR_OUT` the inverse mod 26 of `OPERAND`, or 0 when there is none, changes nothing else but STATUS,
and always succeeds; its word is 2 only, and any other word with that opcode is illegal (40_modular_arithmetic.md
R74). -/
def Obligations.RinvResult : Prop :=
  (∀ s : State, ∃ r : Nat, r < 26 ∧
    (if Int.gcd s.operand.toInt 26 = 1 then (s.operand.toInt * r) % 26 = 1 else r = 0) ∧
    exec .rinv s = .next { s with scalarOut := BitVec.ofNat 32 r, status := endedStatus s .ok }) ∧
  (∀ w : Word, decodeCmd w = .ok .rinv ↔ w = 0x00000002) ∧ illegalWhere 2 (fun w => w ≠ 0x00000002)

/-- BUILD of `n²` words, `1 ≤ n ≤ N_MAX`, makes `MREG[md]` the n×n matrix of the first `n²` staging words mod 26, padded
with zeros; it fails with SHAPE when `len` is no perfect square, and with DIMENSION when it is 0 or the square of a number
above `N_MAX`. Nothing else changes but STATUS. Its word, and the words with its opcode that are illegal
(41_matrix_construction.md R80, R81). -/
def Obligations.BuildResult : Prop :=
  (∀ (s : State) (md : MNum) (n : Nat), 1 ≤ n → n ≤ s.cfg.nMax →
    exec (.build md (n * n)) s = .next { s with
      mreg := s.mreg.set md.val
        { dim := n
          e := (List.range (n * n)).map (fun i => BitVec.ofNat 5 ((s.stage.getD i 0).toInt % 26).toNat) ++
            List.replicate (s.cfg.nMax * s.cfg.nMax - n * n) 0 }
      status := endedStatus s .ok }) ∧
  (∀ (s : State) (md : MNum) (len : Nat),
    ((∀ n, n * n ≠ len) → exec (.build md len) s = .next { s with status := endedStatus s .shape }) ∧
    ∀ n, n * n = len → (n = 0 ∨ s.cfg.nMax < n) →
      exec (.build md len) s = .next { s with status := endedStatus s .dimension }) ∧
  (∀ (w : Word) (md : MNum) (len : Nat), decodeCmd w = .ok (.build md len) ↔
    len ≤ 255 ∧ w = (0x3#32 ||| BitVec.ofNat 32 md.val <<< 4 ||| BitVec.ofNat 32 len <<< 8)) ∧
  illegalWhere 3 (fun w => msNonzero w ∨ rsvNonzero w)

/-- The source's shape-rejection test: BUILD of 5 words, `0x00000503` for m0, fails with SHAPE and leaves the matrix
registers unchanged (41_matrix_construction.md R82, which the spec marks as derived from R81). -/
def Obligations.BuildOfFiveIsRejected : Prop :=
  decodeCmd 0x00000503 = .ok (.build 0 5) ∧
  ∀ (s : State) (md : MNum), exec (.build md 5) s = .next { s with status := endedStatus s .shape }

/-- DET of a register that holds a matrix leaves its determinant, zero-extended, in `SCALAR_OUT` and changes nothing
else but STATUS; of an empty register it fails with EMPTY. Its word, and the words with its opcode that are illegal
(42_determinant.md R93). -/
def Obligations.DetResult : Prop :=
  (∀ (s : State) (ms : MNum),
    ((s.matrix ms).dim ≠ 0 → exec (.det ms) s = .next { s with
      scalarOut := BitVec.ofNat 32 (det (s.matrix ms).dim (s.matrix ms).e).toNat
      status := endedStatus s .ok }) ∧
    ((s.matrix ms).dim = 0 → exec (.det ms) s = .next { s with status := endedStatus s .empty })) ∧
  (∀ (w : Word) (ms : MNum), decodeCmd w = .ok (.det ms) ↔ w = (0x4#32 ||| BitVec.ofNat 32 ms.val <<< 6)) ∧
  illegalWhere 4 (fun w => mdNonzero w ∨ immNonzero w ∨ rsvNonzero w)

/-- INV: with `d` the inverse lookup of the source's determinant, it writes into `MREG[md]` the source's dimension, the
`n²` entries of the rule for that dimension, and zeros after them; it fails with EMPTY when the source is empty, and else
with SINGULAR when `d` is 0. `md` may be `ms`. Nothing else changes but STATUS. Its word, and the words with its opcode
that are illegal (43_inverse.md R106). -/
def Obligations.InvResult : Prop :=
  (∀ (s : State) (md ms : MNum) (d : Residue),
    d = invTab (normalize26 (val (det (s.matrix ms).dim (s.matrix ms).e))) →
    ((s.matrix ms).dim = 0 → exec (.inv md ms) s = .next { s with status := endedStatus s .empty }) ∧
    ((s.matrix ms).dim ≠ 0 → d = 0 → exec (.inv md ms) s = .next { s with status := endedStatus s .singular }) ∧
    ((s.matrix ms).dim ≠ 0 → d ≠ 0 → exec (.inv md ms) s = .next { s with
      mreg := s.mreg.set md.val
        { dim := (s.matrix ms).dim
          e := (List.range ((s.matrix ms).dim * (s.matrix ms).dim)).map
              (inverseEntry (s.matrix ms).dim (s.matrix ms).e d) ++
            List.replicate (s.cfg.nMax * s.cfg.nMax - (s.matrix ms).dim * (s.matrix ms).dim) 0 }
      status := endedStatus s .ok })) ∧
  (∀ (w : Word) (md ms : MNum), decodeCmd w = .ok (.inv md ms) ↔
    w = (0x5#32 ||| BitVec.ofNat 32 md.val <<< 4 ||| BitVec.ofNat 32 ms.val <<< 6)) ∧
  illegalWhere 5 (fun w => immNonzero w ∨ rsvNonzero w)

/-- INV of a register that holds a matrix fails with SINGULAR exactly when its determinant is not coprime to 26, which is
when it is even or 13, and when its inverse lookup is 0; then only STATUS is written (43_inverse.md R104). -/
def Obligations.InvSingular : Prop :=
  ∀ (s : State) (md ms : MNum), (s.matrix ms).dim ≠ 0 → (s.matrix ms).Ok s.cfg →
    (exec (.inv md ms) s = .next { s with status := endedStatus s .singular } ↔
      Int.gcd (val (det (s.matrix ms).dim (s.matrix ms).e)) 26 ≠ 1) ∧
    (invTab (det (s.matrix ms).dim (s.matrix ms).e) = 0 ↔
      Int.gcd (val (det (s.matrix ms).dim (s.matrix ms).e)) 26 ≠ 1) ∧
    (Int.gcd (val (det (s.matrix ms).dim (s.matrix ms).e)) 26 ≠ 1 ↔
      (det (s.matrix ms).dim (s.matrix ms).e).toNat % 2 = 0 ∨ (det (s.matrix ms).dim (s.matrix ms).e).toNat = 13)

/-- COL of a column inside the matrix leaves it in `VEC_OUT`, followed by zeros; of a column outside, it fails with
INDEX; of an empty register, with EMPTY. Nothing else changes but STATUS. Its word, and the words with its opcode that are
illegal (44_matrix_query.md R120). -/
def Obligations.ColResult : Prop :=
  (∀ (s : State) (ms : MNum) (j : Nat),
    (j < (s.matrix ms).dim → exec (.col ms j) s = .next { s with
      vecOut := (List.range s.cfg.nMax).map (fun k =>
        if k < (s.matrix ms).dim then
          BitVec.ofNat 32 ((s.matrix ms).e.getD (j + k * (s.matrix ms).dim) 0).toNat
        else 0)
      status := endedStatus s .ok }) ∧
    ((s.matrix ms).dim ≠ 0 → (s.matrix ms).dim ≤ j →
      exec (.col ms j) s = .next { s with status := endedStatus s .index }) ∧
    ((s.matrix ms).dim = 0 → exec (.col ms j) s = .next { s with status := endedStatus s .empty })) ∧
  (∀ (w : Word) (ms : MNum) (j : Nat), decodeCmd w = .ok (.col ms j) ↔
    j ≤ 255 ∧ w = (0x6#32 ||| BitVec.ofNat 32 ms.val <<< 6 ||| BitVec.ofNat 32 j <<< 8)) ∧
  illegalWhere 6 (fun w => mdNonzero w ∨ rsvNonzero w)

/-- DIM of a register that holds a matrix leaves its dimension in `SCALAR_OUT` and changes nothing else but STATUS; of an
empty register it fails with EMPTY, while `MDIM` of it reads 0. Its word, and the words with its opcode that are illegal
(44_matrix_query.md R122). -/
def Obligations.DimResult : Prop :=
  (∀ (s : State) (ms : MNum),
    ((s.matrix ms).dim ≠ 0 → exec (.dim ms) s = .next { s with
      scalarOut := BitVec.ofNat 32 (s.matrix ms).dim
      status := endedStatus s .ok }) ∧
    ((s.matrix ms).dim = 0 → exec (.dim ms) s = .next { s with status := endedStatus s .empty } ∧
      s.peek (BitVec.ofNat 9 (0x008 + ms.val)) = 0)) ∧
  (∀ (w : Word) (ms : MNum), decodeCmd w = .ok (.dim ms) ↔ w = (0x7#32 ||| BitVec.ofNat 32 ms.val <<< 6)) ∧
  illegalWhere 7 (fun w => mdNonzero w ∨ immNonzero w ∨ rsvNonzero w)


/-! ### Frames, through the words of the window -/

/-- NORM, RINV, DET and DIM change `SCALAR_OUT` and STATUS alone: every other address of the window reads as before
(10_state.md R17). -/
def Obligations.ScalarCommandsFrame : Prop :=
  ∀ (s t : State) (ms : MNum) (i : Instr), i = .norm ∨ i = .rinv ∨ i = .det ms ∨ i = .dim ms →
    exec i s = .next t →
    t = { s with scalarOut := t.scalarOut, status := t.status } ∧
    ∀ a : WAddr, a ≠ 0x003 → a ≠ 0x006 → t.peek a = s.peek a

/-- BUILD and INV change the destination register and STATUS alone: every address but `STATUS`, `MDIM[md]` and
`MELEM[md][..]` reads as before (10_state.md R13). -/
def Obligations.MatrixCommandsFrame : Prop :=
  ∀ (s t : State) (md ms : MNum) (len : Nat) (i : Instr), i = .build md len ∨ i = .inv md ms →
    exec i s = .next t →
    t = { s with mreg := t.mreg, status := t.status } ∧ (∀ k, k ≠ md → t.matrix k = s.matrix k) ∧
    ∀ a : WAddr, a ≠ 0x003 → a.toNat ≠ 0x008 + md.val →
      ¬(0x100 + 64 * md.val ≤ a.toNat ∧ a.toNat < 0x100 + 64 * md.val + 64) → t.peek a = s.peek a

/-- COL changes `VEC_OUT` and STATUS alone, and NOP STATUS alone: every other address reads as before (10_state.md R18,
45_control.md R130). -/
def Obligations.ColAndNopFrame : Prop :=
  ∀ s t : State,
    (∀ (ms : MNum) (j : Nat), exec (.col ms j) s = .next t →
      t = { s with vecOut := t.vecOut, status := t.status } ∧
      ∀ a : WAddr, a ≠ 0x003 → ¬(0x080 ≤ a.toNat ∧ a.toNat ≤ 0x087) → t.peek a = s.peek a) ∧
    (exec .nop s = .next t → ∀ a : WAddr, a ≠ 0x003 → t.peek a = s.peek a)

/-! ### The arithmetic -/

/-- `normalize` is the Euclidean remainder mod 26, in both forms of the source (40_modular_arithmetic.md R70; `tmod` is
the truncating remainder). -/
def Obligations.NormalizeIsEuclidean : Prop :=
  ∀ n : ℤ, val (normalize26 n) = n % 26 ∧ 0 ≤ val (normalize26 n) ∧ val (normalize26 n) < 26 ∧
    val (normalize26 n) = ((n.tmod 26) + 26).tmod 26 ∧
    (n < 0 → val (normalize26 n) = if 26 - |n| % 26 = 26 then 0 else 26 - |n| % 26)

/-- The inverse lookup: the unique inverse in [1, 26) where there is one, else 0; an inverse exists exactly for the
residues coprime to 26; and it is an involution on them (40_modular_arithmetic.md R71; the involution is R72, which the spec
marks as derived from R71). -/
def Obligations.InverseLookup : Prop :=
  ∀ r : Residue, r.toNat < 26 →
    (∀ t : Nat, 1 ≤ t → t < 26 → ((r.toNat * t) % 26 = 1 ↔ (invTab r).toNat = t)) ∧
    ((∀ t : Nat, 1 ≤ t → t < 26 → (r.toNat * t) % 26 ≠ 1) → invTab r = 0) ∧
    (invTab r ≠ 0 ↔ Nat.gcd r.toNat 26 = 1) ∧ (invTab r ≠ 0 → invTab (invTab r) = r)

/-- `Minor(e, n, r, c)` is the row-major submatrix without row `r` and column `c`, of `(n-1)²` elements
(42_determinant.md R90). -/
def Obligations.MinorDeletesRowAndColumn : Prop :=
  ∀ (e : List Residue) (n r c : Nat), 2 ≤ n → r < n → c < n →
    (minor e n r c).length = (n - 1) * (n - 1) ∧
    ∀ i j, i < n - 1 → j < n - 1 →
      elem (minor e n r c) (i * (n - 1) + j) =
        elem e ((if i < r then i else i + 1) * n + (if j < c then j else j + 1))

/-- `Transpose(e, n)` is the n×n matrix with `T[r*n + c] = e[c*n + r]` (43_inverse.md R100). -/
def Obligations.TransposeSwapsRowsAndColumns : Prop :=
  ∀ (e : List Residue) (n : Nat), (transpose e n).length = n * n ∧
    ∀ r c, r < n → c < n → elem (transpose e n) (r * n + c) = elem e (c * n + r)

/-- `Det` by its three cases (42_determinant.md R91). -/
def Obligations.DetExpandsAlongFirstRow : Prop :=
  ∀ e : List Residue, det 1 e = elem e 0 ∧
    det 2 e = normalize26 (val (elem e 0) * val (elem e 3) - val (elem e 1) * val (elem e 2)) ∧
    ∀ n, 2 < n → det n e =
      normalize26 (∑ i ∈ Finset.range n, (-1) ^ i * val (elem e i) * val (det (n - 1) (minor e n 0 i)))

/-- For every n ≥ 1, `Det(e, n)` is the textbook determinant of the n×n integer matrix, reduced mod 26
(42_determinant.md R94, 90_conflicts.md C1; an equivalence that the spec marks as its own inference). -/
def Obligations.DetIsTextbookDeterminant : Prop :=
  ∀ (n : Nat) (e : List Residue), 1 ≤ n → (∀ i, (elem e i).toNat < 26) →
    val (det n e) = (asMatrix n e).det % 26

/-- Reducing only at the end gives the same determinant, because `normalize` is compatible with `+`, `-` and `*`
(42_determinant.md R92; an inference the spec marks as its own). -/
def Obligations.ReductionScheduleIsFree : Prop :=
  (∀ a b : ℤ, normalize26 (a + b) = normalize26 (val (normalize26 a) + val (normalize26 b)) ∧
    normalize26 (a - b) = normalize26 (val (normalize26 a) - val (normalize26 b)) ∧
    normalize26 (a * b) = normalize26 (val (normalize26 a) * val (normalize26 b))) ∧
  ∀ (n : Nat) (e : List Residue), 1 ≤ n → (∀ i, (elem e i).toNat < 26) → det n e = normalize26 (detExact n e)

/-- For n = 1, n = 2 and every odd n, INV of a matrix whose textbook determinant is coprime to 26 gives its inverse
mod 26, on both sides (43_inverse.md R108; an inference the spec marks as its own). -/
def Obligations.InvIsTrueInverse : Prop :=
  ∀ (s : State) (md ms : MNum) (n : Nat), (s.matrix ms).Ok s.cfg → (s.matrix ms).dim = n →
    n = 2 ∨ n % 2 = 1 → Int.gcd (asMatrix n (s.matrix ms).e).det 26 = 1 →
    ∃ t, exec (.inv md ms) s = .next t ∧ t.status.err = .ok ∧ (t.matrix md).dim = n ∧
      sameMod26 (asMatrix n (s.matrix ms).e * asMatrix n (t.matrix md).e) 1 ∧
      sameMod26 (asMatrix n (t.matrix md).e * asMatrix n (s.matrix ms).e) 1

/-- For even n ≥ 4, INV gives the true inverse with every odd row negated: `R = D * M⁻¹` mod 26 with
`D = diag(1, -1, 1, -1, ...)` (43_inverse.md R109, 90_conflicts.md C2; an inference the spec marks as its own). -/
def Obligations.InvAtEvenDimension : Prop :=
  ∀ (s : State) (md ms : MNum) (n : Nat), (s.matrix ms).Ok s.cfg → (s.matrix ms).dim = n →
    4 ≤ n → n % 2 = 0 → Int.gcd (asMatrix n (s.matrix ms).e).det 26 = 1 →
    ∃ t, exec (.inv md ms) s = .next t ∧ t.status.err = .ok ∧ (t.matrix md).dim = n ∧
      sameMod26 (asMatrix n (s.matrix ms).e * (Matrix.diagonal (fun r : Fin n => (-1) ^ r.val) *
        asMatrix n (t.matrix md).e)) 1 ∧
      sameMod26 (Matrix.diagonal (fun r : Fin n => (-1) ^ r.val) * asMatrix n (t.matrix md).e *
        asMatrix n (s.matrix ms).e) 1

/-- The round trip: for n = 1, n = 2 and every odd n, INV of the INV of a matrix is the matrix; for even n ≥ 4 it is the
matrix with every entry at odd `r + c` negated mod 26 (43_inverse.md R110; the spec marks it as its own
inference, which restricts the source's guarantee). -/
def Obligations.InvRoundTrip : Prop :=
  ∀ (s : State) (md md' ms : MNum) (n : Nat), (s.matrix ms).Ok s.cfg → (s.matrix ms).dim = n → 1 ≤ n →
    Int.gcd (asMatrix n (s.matrix ms).e).det 26 = 1 →
    ∃ t u, exec (.inv md ms) s = .next t ∧ exec (.inv md' md) t = .next u ∧ u.status.err = .ok ∧
      (n = 2 ∨ n % 2 = 1 → u.matrix md' = s.matrix ms) ∧
      (4 ≤ n → n % 2 = 0 → (u.matrix md').dim = n ∧
        ∀ r c : Fin n, asMatrix n (u.matrix md').e r c =
          ((-1) ^ (r.val + c.val) * asMatrix n (s.matrix ms).e r c) % 26)
end

