-- ==== Sys2Proof/Laws/Residues.lean ====
section
/-! SUPPORT. The residue functions and the flat sequences of residues: what `normalize`, `invTab`, `elem` and `padTo`
give (00_scope.md R5, R7, R9; 40_modular_arithmetic.md R70, R71; 10_state.md R12). -/

namespace Sys2Proof.Machine

/-! ### Normalizing -/

theorem emod26_nonneg (n : Int) : 0 ≤ n % 26 := Int.emod_nonneg n (by decide)

theorem emod26_lt (n : Int) : n % 26 < 26 := Int.emod_lt_of_pos n (by decide)

theorem normalize26_toNat (n : Int) : (normalize26 n).toNat = (n % 26).toNat := by
  have h0 := emod26_nonneg n
  have h1 := emod26_lt n
  simp only [normalize26, BitVec.toNat_ofNat]
  omega

theorem normalize26_lt (n : Int) : (normalize26 n).toNat < 26 := by
  have h0 := emod26_nonneg n
  have h1 := emod26_lt n
  rw [normalize26_toNat]
  omega

@[simp] theorem val_normalize26 (n : Int) : val (normalize26 n) = n % 26 := by
  rw [val, normalize26_toNat, Int.toNat_of_nonneg (emod26_nonneg n)]

theorem val_nonneg (r : Residue) : 0 ≤ val r := Int.natCast_nonneg _

/-- Two residues with the same integer value are the same. -/
theorem val_inj {r t : Residue} (h : val r = val t) : r = t := BitVec.eq_of_toNat_eq (Int.ofNat_inj.mp h)

/-- Normalizing depends on the integer mod 26 alone. -/
theorem normalize26_congr {m n : Int} (h : m % 26 = n % 26) : normalize26 m = normalize26 n := by
  simp only [normalize26, h]

/-- A residue below 26 is its own normal form. -/
theorem normalize26_val {r : Residue} (h : r.toNat < 26) : normalize26 (val r) = r := by
  apply val_inj
  rw [val_normalize26, val]
  omega

/-! ### The inverse lookup -/

theorem invTab_lt (r : Residue) : (invTab r).toNat < 26 := by
  revert r
  decide

/-! ### Flat sequences -/

theorem zext32_toNat (r : Residue) : (zext32 r).toNat = r.toNat := by
  simp only [zext32, BitVec.toNat_setWidth]
  have := r.isLt
  omega

theorem elem_map_range (f : Nat → Residue) {n i : Nat} (h : i < n) : elem ((List.range n).map f) i = f i := by
  simp [elem, h]

theorem elem_map_range_ge (f : Nat → Residue) {n i : Nat} (h : n ≤ i) : elem ((List.range n).map f) i = 0 := by
  simp [elem, h]

theorem elem_of_length_le {l : List Residue} {i : Nat} (h : l.length ≤ i) : elem l i = 0 := by
  simp [elem, h]

theorem elem_map {α : Type} (f : α → Residue) (l : List α) {i : Nat} (h : i < l.length) :
    elem (l.map f) i = f l[i] := by
  simp [elem, h]

@[simp] theorem elem_replicate (n i : Nat) : elem (List.replicate n 0) i = 0 := by
  by_cases h : i < n
  · simp [elem, h]
  · exact elem_of_length_le (by simpa using h)

@[simp] theorem elem_padTo (n : Nat) (l : List Residue) (i : Nat) : elem (padTo n l) i = elem l i := by
  by_cases h : i < l.length
  · simp [elem, padTo, List.getElem?_append_left h]
  · rw [elem_of_length_le (Nat.le_of_not_lt h), padTo, elem, List.getD_append_right _ _ _ _ (Nat.le_of_not_lt h)]
    exact elem_replicate _ _

theorem length_padTo {n : Nat} {l : List Residue} (h : l.length ≤ n) : (padTo n l).length = n := by
  simp [padTo]
  omega

/-- Two sequences of one length with the same fields are the same. -/
theorem ext_elem {l m : List Residue} (hl : l.length = m.length) (h : ∀ i, elem l i = elem m i) : l = m := by
  apply List.ext_getElem hl
  intro i h1 h2
  have := h i
  simpa [elem, h1, h2] using this

end Sys2Proof.Machine
end

