-- ==== Sys2Proof/Laws/State.lean ====
section
/-! SUPPORT. One lemma per field per update of the state, and per field of STATUS and of a matrix register, so that no
later proof unfolds a record update. -/

namespace Sys2Proof.Machine

section Updates

variable (s : State)

/-! `s.setMatrix k m` -/

@[simp] theorem State.setMatrix_cfg (k : MNum) (m : MReg) : (s.setMatrix k m).cfg = s.cfg := rfl
@[simp] theorem State.setMatrix_mreg (k : MNum) (m : MReg) : (s.setMatrix k m).mreg = s.mreg.set k.val m := rfl
@[simp] theorem State.setMatrix_stage (k : MNum) (m : MReg) : (s.setMatrix k m).stage = s.stage := rfl
@[simp] theorem State.setMatrix_operand (k : MNum) (m : MReg) : (s.setMatrix k m).operand = s.operand := rfl
@[simp] theorem State.setMatrix_scalarOut (k : MNum) (m : MReg) : (s.setMatrix k m).scalarOut = s.scalarOut := rfl
@[simp] theorem State.setMatrix_vecOut (k : MNum) (m : MReg) : (s.setMatrix k m).vecOut = s.vecOut := rfl
@[simp] theorem State.setMatrix_ctrl (k : MNum) (m : MReg) : (s.setMatrix k m).ctrl = s.ctrl := rfl
@[simp] theorem State.setMatrix_status (k : MNum) (m : MReg) : (s.setMatrix k m).status = s.status := rfl
@[simp] theorem State.setMatrix_cmd (k : MNum) (m : MReg) : (s.setMatrix k m).cmd = s.cmd := rfl
@[simp] theorem State.setMatrix_agenda (k : MNum) (m : MReg) : (s.setMatrix k m).agenda = s.agenda := rfl
@[simp] theorem State.setMatrix_rdata (k : MNum) (m : MReg) : (s.setMatrix k m).rdata = s.rdata := rfl
@[simp] theorem State.setMatrix_draws (k : MNum) (m : MReg) : (s.setMatrix k m).draws = s.draws := rfl

/-! `s.setScalarOut w` -/

@[simp] theorem State.setScalarOut_cfg (w : Word) : (s.setScalarOut w).cfg = s.cfg := rfl
@[simp] theorem State.setScalarOut_mreg (w : Word) : (s.setScalarOut w).mreg = s.mreg := rfl
@[simp] theorem State.setScalarOut_stage (w : Word) : (s.setScalarOut w).stage = s.stage := rfl
@[simp] theorem State.setScalarOut_operand (w : Word) : (s.setScalarOut w).operand = s.operand := rfl
@[simp] theorem State.setScalarOut_scalarOut (w : Word) : (s.setScalarOut w).scalarOut = w := rfl
@[simp] theorem State.setScalarOut_vecOut (w : Word) : (s.setScalarOut w).vecOut = s.vecOut := rfl
@[simp] theorem State.setScalarOut_ctrl (w : Word) : (s.setScalarOut w).ctrl = s.ctrl := rfl
@[simp] theorem State.setScalarOut_status (w : Word) : (s.setScalarOut w).status = s.status := rfl
@[simp] theorem State.setScalarOut_cmd (w : Word) : (s.setScalarOut w).cmd = s.cmd := rfl
@[simp] theorem State.setScalarOut_agenda (w : Word) : (s.setScalarOut w).agenda = s.agenda := rfl
@[simp] theorem State.setScalarOut_rdata (w : Word) : (s.setScalarOut w).rdata = s.rdata := rfl
@[simp] theorem State.setScalarOut_draws (w : Word) : (s.setScalarOut w).draws = s.draws := rfl

/-! `s.setVecOut v` -/

@[simp] theorem State.setVecOut_cfg (v : List Word) : (s.setVecOut v).cfg = s.cfg := rfl
@[simp] theorem State.setVecOut_mreg (v : List Word) : (s.setVecOut v).mreg = s.mreg := rfl
@[simp] theorem State.setVecOut_stage (v : List Word) : (s.setVecOut v).stage = s.stage := rfl
@[simp] theorem State.setVecOut_operand (v : List Word) : (s.setVecOut v).operand = s.operand := rfl
@[simp] theorem State.setVecOut_scalarOut (v : List Word) : (s.setVecOut v).scalarOut = s.scalarOut := rfl
@[simp] theorem State.setVecOut_vecOut (v : List Word) : (s.setVecOut v).vecOut = v := rfl
@[simp] theorem State.setVecOut_ctrl (v : List Word) : (s.setVecOut v).ctrl = s.ctrl := rfl
@[simp] theorem State.setVecOut_status (v : List Word) : (s.setVecOut v).status = s.status := rfl
@[simp] theorem State.setVecOut_cmd (v : List Word) : (s.setVecOut v).cmd = s.cmd := rfl
@[simp] theorem State.setVecOut_agenda (v : List Word) : (s.setVecOut v).agenda = s.agenda := rfl
@[simp] theorem State.setVecOut_rdata (v : List Word) : (s.setVecOut v).rdata = s.rdata := rfl
@[simp] theorem State.setVecOut_draws (v : List Word) : (s.setVecOut v).draws = s.draws := rfl

/-! `s.setOperand w` -/

@[simp] theorem State.setOperand_cfg (w : Word) : (s.setOperand w).cfg = s.cfg := rfl
@[simp] theorem State.setOperand_mreg (w : Word) : (s.setOperand w).mreg = s.mreg := rfl
@[simp] theorem State.setOperand_stage (w : Word) : (s.setOperand w).stage = s.stage := rfl
@[simp] theorem State.setOperand_operand (w : Word) : (s.setOperand w).operand = w := rfl
@[simp] theorem State.setOperand_scalarOut (w : Word) : (s.setOperand w).scalarOut = s.scalarOut := rfl
@[simp] theorem State.setOperand_vecOut (w : Word) : (s.setOperand w).vecOut = s.vecOut := rfl
@[simp] theorem State.setOperand_ctrl (w : Word) : (s.setOperand w).ctrl = s.ctrl := rfl
@[simp] theorem State.setOperand_status (w : Word) : (s.setOperand w).status = s.status := rfl
@[simp] theorem State.setOperand_cmd (w : Word) : (s.setOperand w).cmd = s.cmd := rfl
@[simp] theorem State.setOperand_agenda (w : Word) : (s.setOperand w).agenda = s.agenda := rfl
@[simp] theorem State.setOperand_rdata (w : Word) : (s.setOperand w).rdata = s.rdata := rfl
@[simp] theorem State.setOperand_draws (w : Word) : (s.setOperand w).draws = s.draws := rfl

/-! `s.setStage i w` -/

@[simp] theorem State.setStage_cfg (i : Nat) (w : Word) : (s.setStage i w).cfg = s.cfg := rfl
@[simp] theorem State.setStage_mreg (i : Nat) (w : Word) : (s.setStage i w).mreg = s.mreg := rfl
@[simp] theorem State.setStage_stage (i : Nat) (w : Word) : (s.setStage i w).stage = s.stage.set i w := rfl
@[simp] theorem State.setStage_operand (i : Nat) (w : Word) : (s.setStage i w).operand = s.operand := rfl
@[simp] theorem State.setStage_scalarOut (i : Nat) (w : Word) : (s.setStage i w).scalarOut = s.scalarOut := rfl
@[simp] theorem State.setStage_vecOut (i : Nat) (w : Word) : (s.setStage i w).vecOut = s.vecOut := rfl
@[simp] theorem State.setStage_ctrl (i : Nat) (w : Word) : (s.setStage i w).ctrl = s.ctrl := rfl
@[simp] theorem State.setStage_status (i : Nat) (w : Word) : (s.setStage i w).status = s.status := rfl
@[simp] theorem State.setStage_cmd (i : Nat) (w : Word) : (s.setStage i w).cmd = s.cmd := rfl
@[simp] theorem State.setStage_agenda (i : Nat) (w : Word) : (s.setStage i w).agenda = s.agenda := rfl
@[simp] theorem State.setStage_rdata (i : Nat) (w : Word) : (s.setStage i w).rdata = s.rdata := rfl
@[simp] theorem State.setStage_draws (i : Nat) (w : Word) : (s.setStage i w).draws = s.draws := rfl

/-! `s.setCtrl c` -/

@[simp] theorem State.setCtrl_cfg (c : Ctrl) : (s.setCtrl c).cfg = s.cfg := rfl
@[simp] theorem State.setCtrl_mreg (c : Ctrl) : (s.setCtrl c).mreg = s.mreg := rfl
@[simp] theorem State.setCtrl_stage (c : Ctrl) : (s.setCtrl c).stage = s.stage := rfl
@[simp] theorem State.setCtrl_operand (c : Ctrl) : (s.setCtrl c).operand = s.operand := rfl
@[simp] theorem State.setCtrl_scalarOut (c : Ctrl) : (s.setCtrl c).scalarOut = s.scalarOut := rfl
@[simp] theorem State.setCtrl_vecOut (c : Ctrl) : (s.setCtrl c).vecOut = s.vecOut := rfl
@[simp] theorem State.setCtrl_ctrl (c : Ctrl) : (s.setCtrl c).ctrl = c := rfl
@[simp] theorem State.setCtrl_status (c : Ctrl) : (s.setCtrl c).status = s.status := rfl
@[simp] theorem State.setCtrl_cmd (c : Ctrl) : (s.setCtrl c).cmd = s.cmd := rfl
@[simp] theorem State.setCtrl_agenda (c : Ctrl) : (s.setCtrl c).agenda = s.agenda := rfl
@[simp] theorem State.setCtrl_rdata (c : Ctrl) : (s.setCtrl c).rdata = s.rdata := rfl
@[simp] theorem State.setCtrl_draws (c : Ctrl) : (s.setCtrl c).draws = s.draws := rfl

/-! `s.setStatus t` -/

@[simp] theorem State.setStatus_cfg (t : Status) : (s.setStatus t).cfg = s.cfg := rfl
@[simp] theorem State.setStatus_mreg (t : Status) : (s.setStatus t).mreg = s.mreg := rfl
@[simp] theorem State.setStatus_stage (t : Status) : (s.setStatus t).stage = s.stage := rfl
@[simp] theorem State.setStatus_operand (t : Status) : (s.setStatus t).operand = s.operand := rfl
@[simp] theorem State.setStatus_scalarOut (t : Status) : (s.setStatus t).scalarOut = s.scalarOut := rfl
@[simp] theorem State.setStatus_vecOut (t : Status) : (s.setStatus t).vecOut = s.vecOut := rfl
@[simp] theorem State.setStatus_ctrl (t : Status) : (s.setStatus t).ctrl = s.ctrl := rfl
@[simp] theorem State.setStatus_status (t : Status) : (s.setStatus t).status = t := rfl
@[simp] theorem State.setStatus_cmd (t : Status) : (s.setStatus t).cmd = s.cmd := rfl
@[simp] theorem State.setStatus_agenda (t : Status) : (s.setStatus t).agenda = s.agenda := rfl
@[simp] theorem State.setStatus_rdata (t : Status) : (s.setStatus t).rdata = s.rdata := rfl
@[simp] theorem State.setStatus_draws (t : Status) : (s.setStatus t).draws = s.draws := rfl

/-! `s.commit e` -/

@[simp] theorem State.commit_cfg (e : ErrCode) : (s.commit e).cfg = s.cfg := rfl
@[simp] theorem State.commit_mreg (e : ErrCode) : (s.commit e).mreg = s.mreg := rfl
@[simp] theorem State.commit_stage (e : ErrCode) : (s.commit e).stage = s.stage := rfl
@[simp] theorem State.commit_operand (e : ErrCode) : (s.commit e).operand = s.operand := rfl
@[simp] theorem State.commit_scalarOut (e : ErrCode) : (s.commit e).scalarOut = s.scalarOut := rfl
@[simp] theorem State.commit_vecOut (e : ErrCode) : (s.commit e).vecOut = s.vecOut := rfl
@[simp] theorem State.commit_ctrl (e : ErrCode) : (s.commit e).ctrl = s.ctrl := rfl
@[simp] theorem State.commit_status (e : ErrCode) : (s.commit e).status = s.status.committed e := rfl
@[simp] theorem State.commit_cmd (e : ErrCode) : (s.commit e).cmd = s.cmd := rfl
@[simp] theorem State.commit_agenda (e : ErrCode) : (s.commit e).agenda = s.agenda := rfl
@[simp] theorem State.commit_rdata (e : ErrCode) : (s.commit e).rdata = s.rdata := rfl
@[simp] theorem State.commit_draws (e : ErrCode) : (s.commit e).draws = s.draws := rfl

/-! `s.accept w` -/

@[simp] theorem State.accept_cfg (w : Word) : (s.accept w).cfg = s.cfg := rfl
@[simp] theorem State.accept_mreg (w : Word) : (s.accept w).mreg = s.mreg := rfl
@[simp] theorem State.accept_stage (w : Word) : (s.accept w).stage = s.stage := rfl
@[simp] theorem State.accept_operand (w : Word) : (s.accept w).operand = s.operand := rfl
@[simp] theorem State.accept_scalarOut (w : Word) : (s.accept w).scalarOut = s.scalarOut := rfl
@[simp] theorem State.accept_vecOut (w : Word) : (s.accept w).vecOut = s.vecOut := rfl
@[simp] theorem State.accept_ctrl (w : Word) : (s.accept w).ctrl = s.ctrl := rfl
@[simp] theorem State.accept_status (w : Word) : (s.accept w).status = s.status.accepted := rfl
@[simp] theorem State.accept_cmd (w : Word) : (s.accept w).cmd = w := rfl
@[simp] theorem State.accept_agenda (w : Word) : (s.accept w).agenda = s.agenda := rfl
@[simp] theorem State.accept_rdata (w : Word) : (s.accept w).rdata = s.rdata := rfl
@[simp] theorem State.accept_draws (w : Word) : (s.accept w).draws = s.draws := rfl

/-! `s.overrun` -/

@[simp] theorem State.overrun_cfg : (s.overrun).cfg = s.cfg := rfl
@[simp] theorem State.overrun_mreg : (s.overrun).mreg = s.mreg := rfl
@[simp] theorem State.overrun_stage : (s.overrun).stage = s.stage := rfl
@[simp] theorem State.overrun_operand : (s.overrun).operand = s.operand := rfl
@[simp] theorem State.overrun_scalarOut : (s.overrun).scalarOut = s.scalarOut := rfl
@[simp] theorem State.overrun_vecOut : (s.overrun).vecOut = s.vecOut := rfl
@[simp] theorem State.overrun_ctrl : (s.overrun).ctrl = s.ctrl := rfl
@[simp] theorem State.overrun_status : (s.overrun).status = s.status.overrun := rfl
@[simp] theorem State.overrun_cmd : (s.overrun).cmd = s.cmd := rfl
@[simp] theorem State.overrun_agenda : (s.overrun).agenda = s.agenda := rfl
@[simp] theorem State.overrun_rdata : (s.overrun).rdata = s.rdata := rfl
@[simp] theorem State.overrun_draws : (s.overrun).draws = s.draws := rfl

/-! `s.withAgenda l` -/

@[simp] theorem State.withAgenda_cfg (l : List Event) : (s.withAgenda l).cfg = s.cfg := rfl
@[simp] theorem State.withAgenda_mreg (l : List Event) : (s.withAgenda l).mreg = s.mreg := rfl
@[simp] theorem State.withAgenda_stage (l : List Event) : (s.withAgenda l).stage = s.stage := rfl
@[simp] theorem State.withAgenda_operand (l : List Event) : (s.withAgenda l).operand = s.operand := rfl
@[simp] theorem State.withAgenda_scalarOut (l : List Event) : (s.withAgenda l).scalarOut = s.scalarOut := rfl
@[simp] theorem State.withAgenda_vecOut (l : List Event) : (s.withAgenda l).vecOut = s.vecOut := rfl
@[simp] theorem State.withAgenda_ctrl (l : List Event) : (s.withAgenda l).ctrl = s.ctrl := rfl
@[simp] theorem State.withAgenda_status (l : List Event) : (s.withAgenda l).status = s.status := rfl
@[simp] theorem State.withAgenda_cmd (l : List Event) : (s.withAgenda l).cmd = s.cmd := rfl
@[simp] theorem State.withAgenda_agenda (l : List Event) : (s.withAgenda l).agenda = l := rfl
@[simp] theorem State.withAgenda_rdata (l : List Event) : (s.withAgenda l).rdata = s.rdata := rfl
@[simp] theorem State.withAgenda_draws (l : List Event) : (s.withAgenda l).draws = s.draws := rfl

/-! `s.resetStep` -/

@[simp] theorem State.resetStep_cfg : (s.resetStep).cfg = s.cfg := rfl
@[simp] theorem State.resetStep_mreg : (s.resetStep).mreg = Vector.replicate 4 (MReg.cleared s.cfg) := rfl
@[simp] theorem State.resetStep_stage : (s.resetStep).stage = List.replicate s.cfg.slots 0 := rfl
@[simp] theorem State.resetStep_operand : (s.resetStep).operand = 0 := rfl
@[simp] theorem State.resetStep_scalarOut : (s.resetStep).scalarOut = 0 := rfl
@[simp] theorem State.resetStep_vecOut : (s.resetStep).vecOut = List.replicate s.cfg.nMax 0 := rfl
@[simp] theorem State.resetStep_ctrl : (s.resetStep).ctrl = { ie := false } := rfl
@[simp] theorem State.resetStep_status : (s.resetStep).status = { busy := false, done := false, ovr := false, err := .ok } := rfl
@[simp] theorem State.resetStep_cmd : (s.resetStep).cmd = 0 := rfl
@[simp] theorem State.resetStep_agenda : (s.resetStep).agenda = s.agenda := rfl
@[simp] theorem State.resetStep_rdata : (s.resetStep).rdata = s.rdata := rfl
@[simp] theorem State.resetStep_draws : (s.resetStep).draws = s.draws := rfl

end Updates

/-! ### STATUS and CTRL -/

section StatusFields

variable (t : Status) (e : ErrCode) (w : Word)

@[simp] theorem Status.accepted_busy : t.accepted.busy = true := rfl
@[simp] theorem Status.accepted_done : t.accepted.done = false := rfl
@[simp] theorem Status.accepted_ovr : t.accepted.ovr = t.ovr := rfl
@[simp] theorem Status.accepted_err : t.accepted.err = t.err := rfl
@[simp] theorem Status.committed_busy : (t.committed e).busy = false := rfl
@[simp] theorem Status.committed_done : (t.committed e).done = true := rfl
@[simp] theorem Status.committed_ovr : (t.committed e).ovr = t.ovr := rfl
@[simp] theorem Status.committed_err : (t.committed e).err = e := rfl
@[simp] theorem Status.overrun_busy : t.overrun.busy = t.busy := rfl
@[simp] theorem Status.overrun_done : t.overrun.done = t.done := rfl
@[simp] theorem Status.overrun_ovr : t.overrun.ovr = true := rfl
@[simp] theorem Status.overrun_err : t.overrun.err = t.err := rfl
@[simp] theorem Status.written_busy : (t.written w).busy = t.busy := rfl
@[simp] theorem Status.written_done : (t.written w).done = (t.done && !w.getLsbD 1) := rfl
@[simp] theorem Status.written_ovr : (t.written w).ovr = (t.ovr && !w.getLsbD 2) := rfl
@[simp] theorem Status.written_err : (t.written w).err = t.err := rfl
@[simp] theorem Ctrl.written_ie : (Ctrl.written w).ie = w.getLsbD 0 := rfl

end StatusFields

/-! ### Matrix registers -/

section Matrices

variable (s : State)

@[simp] theorem State.matrix_setMatrix (k l : MNum) (m : MReg) :
    (s.setMatrix k m).matrix l = if l = k then m else s.matrix l := by
  by_cases h : l = k
  · subst h
    simp [State.matrix, State.setMatrix]
  · have : k.val ≠ l.val := fun hk => h (Fin.ext hk.symm)
    simp [State.matrix, State.setMatrix, h, this]

@[simp] theorem State.matrix_setScalarOut (w : Word) (k : MNum) : (s.setScalarOut w).matrix k = s.matrix k := rfl
@[simp] theorem State.matrix_setVecOut (v : List Word) (k : MNum) : (s.setVecOut v).matrix k = s.matrix k := rfl
@[simp] theorem State.matrix_setOperand (w : Word) (k : MNum) : (s.setOperand w).matrix k = s.matrix k := rfl
@[simp] theorem State.matrix_setStage (i : Nat) (w : Word) (k : MNum) : (s.setStage i w).matrix k = s.matrix k := rfl
@[simp] theorem State.matrix_setCtrl (c : Ctrl) (k : MNum) : (s.setCtrl c).matrix k = s.matrix k := rfl
@[simp] theorem State.matrix_setStatus (t : Status) (k : MNum) : (s.setStatus t).matrix k = s.matrix k := rfl
@[simp] theorem State.matrix_commit (e : ErrCode) (k : MNum) : (s.commit e).matrix k = s.matrix k := rfl
@[simp] theorem State.matrix_accept (w : Word) (k : MNum) : (s.accept w).matrix k = s.matrix k := rfl
@[simp] theorem State.matrix_overrun (k : MNum) : s.overrun.matrix k = s.matrix k := rfl
@[simp] theorem State.matrix_withAgenda (l : List Event) (k : MNum) : (s.withAgenda l).matrix k = s.matrix k := rfl

@[simp] theorem State.matrix_resetStep (k : MNum) : s.resetStep.matrix k = MReg.cleared s.cfg := by
  simp [State.matrix]

@[simp] theorem MReg.cleared_dim (c : Config) : (MReg.cleared c).dim = 0 := rfl
@[simp] theorem MReg.cleared_e (c : Config) : (MReg.cleared c).e = List.replicate c.slots 0 := rfl

end Matrices

end Sys2Proof.Machine
end

