-- ==== Sys2Proof/Laws/Commands.lean ====
section
/-! SUPPORT. One lemma for each shared operation of the commands, and what a command can do at all
(60_exceptions.md R144). -/

namespace Sys2Proof.Machine

/-- A command over a source register fails with EMPTY, or the register holds a matrix and the command's own effect
runs. -/
theorem withSource_cases (ms : MNum) (k : MReg → Outcome) (s : State) :
    ((s.matrix ms).dim = 0 ∧ withSource ms k s = failWith .empty s) ∨
    ((s.matrix ms).dim ≠ 0 ∧ withSource ms k s = k (s.matrix ms)) := by
  by_cases h : (s.matrix ms).dim = 0
  · exact .inl ⟨h, by simp [withSource, h]⟩
  · exact .inr ⟨h, by simp [withSource, h]⟩

theorem withSource_empty {ms : MNum} {k : MReg → Outcome} {s : State} (h : (s.matrix ms).dim = 0) :
    withSource ms k s = failWith .empty s := by
  simp [withSource, h]

theorem withSource_of_dim_ne_zero {ms : MNum} {k : MReg → Outcome} {s : State} (h : (s.matrix ms).dim ≠ 0) :
    withSource ms k s = k (s.matrix ms) := by
  simp [withSource, h]

/-- The perfect square check finds the root and nothing else. -/
theorem exactSqrt_eq_some {L n : Nat} : exactSqrt L = some n ↔ n * n = L := by
  have hfind : ∀ m, exactSqrt L = some m → m * m = L := by
    intro m hm
    have := List.find?_some hm
    simpa using this
  constructor
  · exact hfind n
  · intro h
    cases hx : exactSqrt L with
    | none =>
      exfalso
      rw [exactSqrt, List.find?_eq_none] at hx
      have hmem : n ∈ List.range (L + 1) := by
        rw [List.mem_range]
        nlinarith
      exact hx n hmem (by simpa using h)
    | some m =>
      have hm := hfind m hx
      rw [Nat.mul_self_inj.mp (hm.trans h.symm)]

theorem exactSqrt_eq_none {L : Nat} : exactSqrt L = none ↔ ∀ n, n * n ≠ L := by
  constructor
  · intro h n hn
    rw [exactSqrt_eq_some.mpr hn] at h
    cases h
  · intro h
    cases hx : exactSqrt L with
    | none => rfl
    | some m => exact absurd (exactSqrt_eq_some.mp hx) (h m)

@[simp] theorem length_stageInts (s : State) (len : Nat) : (s.stageInts len).length = len := by
  simp [State.stageInts]

/-- What a command can do: it records an error and nothing else; or it succeeds and writes nothing (NOP), SCALAR_OUT
(NORM, RINV, DET, DIM), `VEC_OUT` (COL), or one matrix register (BUILD, INV). -/
theorem exec_cases (i : Instr) (s : State) :
    (∃ e, e ≠ .ok ∧ exec i s = failWith e s) ∨
    (i = .nop ∧ exec i s = succeed s) ∨
    (∃ w, (i = .norm ∨ i = .rinv ∨ (∃ ms, i = .det ms) ∨ ∃ ms, i = .dim ms) ∧
      exec i s = succeed (s.setScalarOut w)) ∨
    (∃ ms j v, i = .col ms j ∧ exec i s = succeed (s.setVecOut v)) ∨
    (∃ md m, ((∃ len, i = .build md len) ∨ ∃ ms, i = .inv md ms) ∧ exec i s = succeed (s.setMatrix md m)) := by
  cases i with
  | nop => exact .inr (.inl ⟨rfl, rfl⟩)
  | norm => exact .inr (.inr (.inl ⟨_, .inl rfl, rfl⟩))
  | rinv => exact .inr (.inr (.inl ⟨_, .inr (.inl rfl), rfl⟩))
  | build md len =>
    simp only [exec, execBuild, fromFlat]
    cases exactSqrt (s.stageInts len).length with
    | none => exact .inl ⟨.shape, by decide, rfl⟩
    | some n =>
      by_cases h : n = 0 ∨ s.cfg.nMax < n
      · exact .inl ⟨.dimension, by decide, by simp [h]⟩
      · exact .inr (.inr (.inr (.inr ⟨md, _, .inl ⟨len, rfl⟩, by simp only [h, if_false]; rfl⟩)))
  | det ms =>
    rcases withSource_cases ms (fun m => succeed (s.setScalarOut (zext32 (det m.dim m.e)))) s with ⟨_, h⟩ | ⟨_, h⟩
    · exact .inl ⟨.empty, by decide, h⟩
    · exact .inr (.inr (.inl ⟨_, .inr (.inr (.inl ⟨ms, rfl⟩)), h⟩))
  | inv md ms =>
    simp only [exec, execInv]
    by_cases h0 : (s.matrix ms).dim = 0
    · exact .inl ⟨.empty, by decide, withSource_empty h0⟩
    · rw [withSource_of_dim_ne_zero h0]
      by_cases h : detInverse (s.matrix ms).dim (s.matrix ms).e = 0
      · exact .inl ⟨.singular, by decide, by simp [h]⟩
      · exact .inr (.inr (.inr (.inr ⟨md, _, .inr ⟨ms, rfl⟩, by simp only [h, if_false]; rfl⟩)))
  | col ms j =>
    simp only [exec, execCol]
    by_cases h0 : (s.matrix ms).dim = 0
    · exact .inl ⟨.empty, by decide, withSource_empty h0⟩
    · rw [withSource_of_dim_ne_zero h0]
      by_cases h : (s.matrix ms).dim ≤ j
      · exact .inl ⟨.index, by decide, by simp [h]⟩
      · exact .inr (.inr (.inr (.inl ⟨ms, j, _, rfl, by simp only [h, if_false]; rfl⟩)))
  | dim ms =>
    rcases withSource_cases ms (fun m => succeed (s.setScalarOut (BitVec.ofNat 32 m.dim))) s with ⟨_, h⟩ | ⟨_, h⟩
    · exact .inl ⟨.empty, by decide, h⟩
    · exact .inr (.inr (.inl ⟨_, .inr (.inr (.inr ⟨ms, rfl⟩)), h⟩))

end Sys2Proof.Machine
end

