-- ==== Sys2Proof/Laws/Encoding.lean ====
section
/-! SUPPORT. The fields of a word, and the word of packed fields, as numbers (30_encoding.md R50, R51). -/

namespace Sys2Proof

theorem fieldOP_toNat (w : Word) : (fieldOP w).toNat = w.toNat % 16 := by
  simp only [fieldOP, BitVec.extractLsb'_toNat, Nat.shiftRight_eq_div_pow]
  omega

theorem fieldMD_val (w : Word) : (fieldMD w).val = w.toNat / 16 % 4 := by
  simp only [fieldMD, BitVec.extractLsb'_toNat, Nat.shiftRight_eq_div_pow]

theorem fieldMS_val (w : Word) : (fieldMS w).val = w.toNat / 64 % 4 := by
  simp only [fieldMS, BitVec.extractLsb'_toNat, Nat.shiftRight_eq_div_pow]

theorem fieldIMM_eq (w : Word) : fieldIMM w = w.toNat / 256 % 256 := by
  simp only [fieldIMM, BitVec.extractLsb'_toNat, Nat.shiftRight_eq_div_pow]

theorem fieldRSV_toNat (w : Word) : (fieldRSV w).toNat = w.toNat / 65536 := by
  have := w.isLt
  simp only [fieldRSV, BitVec.extractLsb'_toNat, Nat.shiftRight_eq_div_pow]
  omega

theorem packCmd_toNat (op : BitVec 4) (md ms : MNum) {imm : Nat} (h : imm ≤ 255) :
    (packCmd op md ms imm).toNat = imm * 256 + ms.val * 64 + md.val * 16 + op.toNat := by
  have h1 := md.isLt
  have h2 := ms.isLt
  have h3 := op.isLt
  simp only [packCmd, BitVec.toNat_append, BitVec.toNat_ofNat, BitVec.toNat_ofFin]
  rw [← Nat.shiftLeft_add_eq_or_of_lt (by omega), ← Nat.shiftLeft_add_eq_or_of_lt (by omega),
    ← Nat.shiftLeft_add_eq_or_of_lt (by omega), ← Nat.shiftLeft_add_eq_or_of_lt (by omega)]
  simp only [Nat.shiftLeft_eq]
  omega

end Sys2Proof
end

