-- ==== Sys2Proof/Laws/PerInstr.lean ====
section
/-! SUPPORT. The family EncodeMatches: the word of a command matches its row of the opcode table (30_encoding.md R53). -/

namespace Sys2Proof.Laws.EncodeMatches

/-- The match word of a command's row. -/
def rowMatch : Instr → Word
  | .nop => 0x00000000
  | .norm => 0x00000001
  | .rinv => 0x00000002
  | .build _ _ => 0x00000003
  | .det _ => 0x00000004
  | .inv _ _ => 0x00000005
  | .col _ _ => 0x00000006
  | .dim _ => 0x00000007

/-- The mask of a command's row. -/
def rowMask : Instr → Word
  | .nop => 0xFFFFFFFF
  | .norm => 0xFFFFFFFF
  | .rinv => 0xFFFFFFFF
  | .build _ _ => 0xFFFF00CF
  | .det _ => 0xFFFFFF3F
  | .inv _ _ => 0xFFFFFF0F
  | .col _ _ => 0xFFFF003F
  | .dim _ => 0xFFFFFF3F

/-- The encoded command selects its own row. -/
def Statement (i : Instr) : Prop := encode i &&& rowMask i = rowMatch i

/-- The packed fields, masked, by one byte of immediate at a time. -/
theorem packCmd_build_mask : ∀ (md : MNum) (b : BitVec 8),
    (0#16 ++ b ++ BitVec.ofFin (w := 2) (0 : MNum) ++ BitVec.ofFin (w := 2) md ++ 0x3#4 : Word) &&& 0xFFFF00CF =
      0x00000003 := by
  decide

theorem packCmd_col_mask : ∀ (ms : MNum) (b : BitVec 8),
    (0#16 ++ b ++ BitVec.ofFin (w := 2) ms ++ BitVec.ofFin (w := 2) (0 : MNum) ++ 0x6#4 : Word) &&& 0xFFFF003F =
      0x00000006 := by
  decide

theorem nop : Statement .nop := by unfold Statement; decide
theorem norm : Statement .norm := by unfold Statement; decide
theorem rinv : Statement .rinv := by unfold Statement; decide
theorem build (md : MNum) (len : Nat) : Statement (.build md len) := packCmd_build_mask md (BitVec.ofNat 8 len)
theorem det (ms : MNum) : Statement (.det ms) := by revert ms; unfold Statement; decide
theorem inv (md ms : MNum) : Statement (.inv md ms) := by revert md ms; unfold Statement; decide
theorem col (ms : MNum) (j : Nat) : Statement (.col ms j) := packCmd_col_mask ms (BitVec.ofNat 8 j)
theorem dim (ms : MNum) : Statement (.dim ms) := by revert ms; unfold Statement; decide

end Sys2Proof.Laws.EncodeMatches
end

