-- ==== Sys2Proof/Laws/Port.lean ====
section
/-! SUPPORT. What the host port can do to the state: one lemma for a read, one for a write, one for a transaction
(20_memory.md R31, R35, R36). -/

namespace Sys2Proof.Machine

/-- A host read changes the port's read data and, when the value is free, the counter of free values. -/
theorem hostRead_cases (a : WAddr) (s : State) :
    (s.unstable (decodeAddr s.cfg a) = true ∧
      s.hostRead a = { s with rdata := Config.freeRead s.draws, draws := s.draws + 1 }) ∨
    (s.unstable (decodeAddr s.cfg a) = false ∧ s.hostRead a = { s with rdata := s.peek a }) := by
  cases h : s.unstable (decodeAddr s.cfg a) with
  | true => exact .inl ⟨rfl, by simp [State.hostRead, h]⟩
  | false => exact .inr ⟨rfl, by simp [State.hostRead, h]⟩

/-- A host write does one of these: nothing, CTRL, STATUS, an overrun (BUSY = 1), an accept, OPERAND, or one staging
word (BUSY = 0). -/
theorem hostWrite_cases (a : WAddr) (w : Word) (s : State) :
    s.hostWrite a w = s ∨
    (decodeAddr s.cfg a = .ctrl ∧ s.hostWrite a w = s.setCtrl (Ctrl.written w)) ∨
    (decodeAddr s.cfg a = .status ∧ s.hostWrite a w = s.setStatus (s.status.written w)) ∨
    (s.status.busy = true ∧ s.hostWrite a w = s.overrun) ∨
    (s.status.busy = false ∧ decodeAddr s.cfg a = .cmd ∧ s.hostWrite a w = s.accept w) ∨
    (s.status.busy = false ∧ decodeAddr s.cfg a = .operand ∧ s.hostWrite a w = s.setOperand w) ∨
    (s.status.busy = false ∧ ∃ i, decodeAddr s.cfg a = .stage i ∧ s.hostWrite a w = s.setStage i w) := by
  cases hb : s.status.busy <;> cases hd : decodeAddr s.cfg a <;> simp [State.hostWrite, hd, hb]
  · cases inStagingWindow a <;> simp

/-- What each word of the window is (20_memory.md R32). -/
theorem decodeIndex_cases (c : Config) (n : Nat) :
    (n = 0 ∧ decodeIndex c n = .id) ∨ (n = 1 ∧ decodeIndex c n = .param) ∨ (n = 2 ∧ decodeIndex c n = .ctrl) ∨
    (n = 3 ∧ decodeIndex c n = .status) ∨ (n = 4 ∧ decodeIndex c n = .cmd) ∨ (n = 5 ∧ decodeIndex c n = .operand) ∨
    (n = 6 ∧ decodeIndex c n = .scalarOut) ∨
    ((8 ≤ n ∧ n ≤ 11) ∧ decodeIndex c n = .mdim (Fin.ofNat 4 (n - 8))) ∨
    (((64 ≤ n ∧ n ≤ 127) ∧ n - 64 < c.slots) ∧ decodeIndex c n = .stage (n - 64)) ∨
    (((128 ≤ n ∧ n ≤ 135) ∧ n - 128 < c.nMax) ∧ decodeIndex c n = .vecOut (n - 128)) ∨
    (((256 ≤ n ∧ n ≤ 511) ∧ (n - 256) % 64 < c.slots) ∧
      decodeIndex c n = .melem (Fin.ofNat 4 ((n - 256) / 64)) ((n - 256) % 64)) ∨
    ((6 < n ∧ ¬(8 ≤ n ∧ n ≤ 11) ∧ ¬((64 ≤ n ∧ n ≤ 127) ∧ n - 64 < c.slots) ∧
      ¬((128 ≤ n ∧ n ≤ 135) ∧ n - 128 < c.nMax) ∧ ¬((256 ≤ n ∧ n ≤ 511) ∧ (n - 256) % 64 < c.slots)) ∧
      decodeIndex c n = .reserved) := by
  by_cases hlow : n ≤ 6
  · interval_cases n <;> simp [decodeIndex]
  · have h0 : n ≠ 0 := by omega
    have h1 : n ≠ 1 := by omega
    have h2 : n ≠ 2 := by omega
    have h3 : n ≠ 3 := by omega
    have h4 : n ≠ 4 := by omega
    have h5 : n ≠ 5 := by omega
    have h6 : n ≠ 6 := by omega
    simp only [decodeIndex, h0, h1, h2, h3, h4, h5, h6, if_false, false_and, false_or]
    by_cases hm : 8 ≤ n ∧ n ≤ 11
    · exact .inl ⟨hm, if_pos hm⟩
    · by_cases hs : (64 ≤ n ∧ n ≤ 127) ∧ n - 64 < c.slots
      · exact .inr (.inl ⟨hs, by rw [if_neg hm, if_pos hs]⟩)
      · by_cases hv : (128 ≤ n ∧ n ≤ 135) ∧ n - 128 < c.nMax
        · exact .inr (.inr (.inl ⟨hv, by rw [if_neg hm, if_neg hs, if_pos hv]⟩))
        · by_cases he : (256 ≤ n ∧ n ≤ 511) ∧ (n - 256) % 64 < c.slots
          · exact .inr (.inr (.inr (.inl ⟨he, by rw [if_neg hm, if_neg hs, if_neg hv, if_pos he]⟩)))
          · exact .inr (.inr (.inr (.inr
              ⟨⟨by omega, hm, hs, hv, he⟩, by rw [if_neg hm, if_neg hs, if_neg hv, if_neg he]⟩)))

/-- The registers a write acts on lie each at one address, but for the staging words (20_memory.md R32). -/
theorem decodeAddr_ctrl {c : Config} {a : WAddr} : decodeAddr c a = .ctrl ↔ a = 0x002 := by
  rw [← BitVec.toNat_inj, decodeAddr]
  rcases decodeIndex_cases c a.toNat with h | h | h | h | h | h | h | h | h | h | h | h <;> simp [h.2] <;> omega

theorem decodeAddr_status {c : Config} {a : WAddr} : decodeAddr c a = .status ↔ a = 0x003 := by
  rw [← BitVec.toNat_inj, decodeAddr]
  rcases decodeIndex_cases c a.toNat with h | h | h | h | h | h | h | h | h | h | h | h <;> simp [h.2] <;> omega

theorem decodeAddr_cmd {c : Config} {a : WAddr} : decodeAddr c a = .cmd ↔ a = 0x004 := by
  rw [← BitVec.toNat_inj, decodeAddr]
  rcases decodeIndex_cases c a.toNat with h | h | h | h | h | h | h | h | h | h | h | h <;> simp [h.2] <;> omega

theorem decodeAddr_operand {c : Config} {a : WAddr} : decodeAddr c a = .operand ↔ a = 0x005 := by
  rw [← BitVec.toNat_inj, decodeAddr]
  rcases decodeIndex_cases c a.toNat with h | h | h | h | h | h | h | h | h | h | h | h <;> simp [h.2] <;> omega

theorem decodeAddr_scalarOut {c : Config} {a : WAddr} : decodeAddr c a = .scalarOut ↔ a = 0x006 := by
  rw [← BitVec.toNat_inj, decodeAddr]
  rcases decodeIndex_cases c a.toNat with h | h | h | h | h | h | h | h | h | h | h | h <;> simp [h.2] <;> omega

/-- At most 64 words of each staging or matrix window are implemented (00_scope.md R1). -/
theorem slots_le_64 (c : Config) : c.slots ≤ 64 := Nat.mul_le_mul c.nMax_le c.nMax_le

/-- The register at the address of each indexed name of the map (20_memory.md R32). -/
theorem decodeAddr_mdim_at (c : Config) (k : MNum) : decodeAddr c (BitVec.ofNat 9 (0x008 + k.val)) = .mdim k := by
  fin_cases k <;> rfl

theorem decodeAddr_stage_at (c : Config) {i : Nat} (h : i < c.slots) :
    decodeAddr c (BitVec.ofNat 9 (0x040 + i)) = .stage i := by
  have hs := slots_le_64 c
  have ha : (BitVec.ofNat 9 (0x040 + i)).toNat = 0x040 + i := by rw [BitVec.toNat_ofNat]; omega
  rw [decodeAddr, ha]
  rcases decodeIndex_cases c (0x040 + i) with h' | h' | h' | h' | h' | h' | h' | h' | h' | h' | h' | h' <;>
    first
    | omega
    | (rw [h'.2, Nat.add_sub_cancel_left])

theorem decodeAddr_vecOut_at (c : Config) {j : Nat} (h : j < c.nMax) :
    decodeAddr c (BitVec.ofNat 9 (0x080 + j)) = .vecOut j := by
  have hn := c.nMax_le
  have ha : (BitVec.ofNat 9 (0x080 + j)).toNat = 0x080 + j := by rw [BitVec.toNat_ofNat]; omega
  rw [decodeAddr, ha]
  rcases decodeIndex_cases c (0x080 + j) with h' | h' | h' | h' | h' | h' | h' | h' | h' | h' | h' | h' <;>
    first
    | omega
    | (rw [h'.2, Nat.add_sub_cancel_left])

theorem decodeAddr_melem_at (c : Config) (k : MNum) {i : Nat} (h : i < c.slots) :
    decodeAddr c (BitVec.ofNat 9 (0x100 + 64 * k.val + i)) = .melem k i := by
  have hs := slots_le_64 c
  have hk := k.isLt
  have ha : (BitVec.ofNat 9 (0x100 + 64 * k.val + i)).toNat = 0x100 + 64 * k.val + i := by
    rw [BitVec.toNat_ofNat]; omega
  have hmod : (0x100 + 64 * k.val + i - 256) % 64 = i := by omega
  have hdiv : Fin.ofNat 4 ((0x100 + 64 * k.val + i - 256) / 64) = k := by
    apply Fin.ext
    simp only [Fin.ofNat]
    omega
  rw [decodeAddr, ha]
  rcases decodeIndex_cases c (0x100 + 64 * k.val + i) with h' | h' | h' | h' | h' | h' | h' | h' | h' | h' | h' | h' <;>
    first
    | omega
    | (rw [h'.2, hmod, hdiv])

/-- A bus access is the transaction the bridge forwards, or nothing. -/
theorem busStep_cases (acc : BusAccess) (s : State) :
    (bridge s.cfg acc = none ∧ s.busStep acc = s) ∨
    ∃ op, bridge s.cfg acc = some op ∧ s.busStep acc = s.hostStep op := by
  cases h : bridge s.cfg acc with
  | none => exact .inl ⟨rfl, by simp [State.busStep, h]⟩
  | some op => exact .inr ⟨op, rfl, by simp [State.busStep, h]⟩

end Sys2Proof.Machine
end

