-- ==== Sys2Proof/Laws/Step.lean ====
section
/-! SUPPORT. What one step can do: a host transaction, a bus access, a reset, a commit, or nothing
(10_state.md R10; 60_exceptions.md R144, R157). -/

namespace Sys2Proof.Machine

/-- The state a step works on: `s` without the entry it takes from the agenda. -/
def State.popped (s : State) : State := s.withAgenda s.agenda.tail

/-- One step, by the agent that takes it. -/
theorem step_cases (s : State) :
    (∃ op rest, s.agenda = .host op :: rest ∧ step s = .next (s.popped.hostStep op)) ∨
    (∃ acc rest, s.agenda = .bus acc :: rest ∧ step s = .next (s.popped.busStep acc)) ∨
    (∃ rest, s.agenda = .reset :: rest ∧ step s = .next s.popped.resetStep) ∨
    ((s.agenda = [] ∨ ∃ rest, s.agenda = .engine :: rest) ∧ s.status.busy = true ∧ step s = commitStep s.popped) ∨
    ((s.agenda = [] ∨ ∃ rest, s.agenda = .engine :: rest) ∧ s.status.busy = false ∧ step s = .next s.popped) := by
  have hempty : s.agenda = [] → s.withAgenda [] = s := by
    intro h
    rw [← h]
    rfl
  cases h : s.agenda with
  | nil =>
    have hp : s.popped = s := by rw [State.popped, h]; exact hempty h
    cases hb : s.status.busy with
    | true => exact .inr (.inr (.inr (.inl ⟨.inl rfl, rfl, by simp [step, h, engineStep, hb, hp]⟩)))
    | false => exact .inr (.inr (.inr (.inr ⟨.inl rfl, rfl, by simp [step, h, engineStep, hb, hp]⟩)))
  | cons ev rest =>
    have hp : s.popped = s.withAgenda rest := by rw [State.popped, h]; rfl
    cases ev with
    | host op => exact .inl ⟨op, rest, rfl, by simp [step, h, eventStep, hp]⟩
    | bus acc => exact .inr (.inl ⟨acc, rest, rfl, by simp [step, h, eventStep, hp]⟩)
    | reset => exact .inr (.inr (.inl ⟨rest, rfl, by simp [step, h, eventStep, hp]⟩))
    | engine =>
      cases hb : s.status.busy with
      | true =>
        exact .inr (.inr (.inr (.inl ⟨.inr ⟨rest, rfl⟩, rfl, by simp [step, h, eventStep, engineStep, hb, hp]⟩)))
      | false =>
        exact .inr (.inr (.inr (.inr ⟨.inr ⟨rest, rfl⟩, rfl, by simp [step, h, eventStep, engineStep, hb, hp]⟩)))

/-- A commit runs the decoded command, or records ILLEGAL. -/
theorem commitStep_cases (s : State) :
    (∃ i, decodeCmd s.cmd = .ok i ∧ commitStep s = exec i s) ∨
    ∃ r, decodeCmd s.cmd = .error r ∧ commitStep s = failWith .illegal s := by
  cases h : decodeCmd s.cmd with
  | ok i => exact .inl ⟨i, rfl, by simp [commitStep, h]⟩
  | error r => exact .inr ⟨r, rfl, by simp [commitStep, h]⟩

end Sys2Proof.Machine
end

