-- ==== Sys2Proof/Machine/Assembler.lean ====
section
/-! DEFINITION. The text of one command line, as the spec's assembler reads it (30_encoding.md R56). A line is a list of
characters. What R56 leaves open (blanks, the case of hexadecimal digits) is in notes/assumptions/12.md. -/

namespace Sys2Proof.Machine

/-- A space or a tab. -/
def isBlank (c : Char) : Bool := c == ' ' || c == '\t'

/-- Without the blanks at either end. -/
def trimBlanks (cs : List Char) : List Char := ((cs.dropWhile isBlank).reverse.dropWhile isBlank).reverse

/-- "`;` starts a comment to the end of the line". -/
def dropComment (cs : List Char) : List Char := cs.takeWhile (fun c => c != ';')

/-- The operands of a line: "operands are separated by commas". -/
def splitCommas : List Char → List (List Char)
  | [] => [[]]
  | c :: cs =>
    match splitCommas cs with
    | [] => [[c]]
    | h :: t => if c == ',' then [] :: h :: t else (c :: h) :: t

/-- The value of a digit in a base of at most 16. -/
def digitValue (base : Nat) (c : Char) : Option Nat :=
  let n := c.toNat
  let d :=
    if 48 ≤ n ∧ n ≤ 57 then n - 48
    else if 97 ≤ n ∧ n ≤ 102 then n - 87
    else if 65 ≤ n ∧ n ≤ 70 then n - 55
    else 16
  if d < base then some d else none

/-- The value of the digits read so far followed by the rest. -/
def digitsFrom (base : Nat) : Nat → List Char → Option Nat
  | acc, [] => some acc
  | acc, c :: cs => (digitValue base c).bind (fun d => digitsFrom base (acc * base + d) cs)

/-- A number of at least one digit. -/
def parseDigits (base : Nat) (cs : List Char) : Option Nat :=
  if cs.isEmpty then none else digitsFrom base 0 cs

/-- "An immediate is decimal, or hexadecimal with `0x`." -/
def parseImm (cs : List Char) : Option Nat :=
  if cs.take 2 = ['0', 'x'] then parseDigits 16 (cs.drop 2) else parseDigits 10 cs

/-- "A matrix register is written `m0` to `m3`." -/
def parseReg (cs : List Char) : Option MNum :=
  if cs = ['m', '0'] then some 0
  else if cs = ['m', '1'] then some 1
  else if cs = ['m', '2'] then some 2
  else if cs = ['m', '3'] then some 3
  else none

/-- "Mnemonics are case-insensitive." -/
def upperCase (c : Char) : Char := if 97 ≤ c.toNat ∧ c.toNat ≤ 122 then Char.ofNat (c.toNat - 32) else c

/-- The command of a mnemonic in capitals and its operand texts. -/
def parseOperands (mn : List Char) (ops : List (List Char)) : Option Instr :=
  match ops with
  | [] =>
    if mn = ['N', 'O', 'P'] then some .nop
    else if mn = ['N', 'O', 'R', 'M'] then some .norm
    else if mn = ['R', 'I', 'N', 'V'] then some .rinv
    else none
  | [x] =>
    if mn = ['D', 'E', 'T'] then (parseReg x).map .det
    else if mn = ['D', 'I', 'M'] then (parseReg x).map .dim
    else none
  | [x, y] =>
    if mn = ['B', 'U', 'I', 'L', 'D'] then (parseReg x).bind (fun md => (parseImm y).map (.build md))
    else if mn = ['I', 'N', 'V'] then (parseReg x).bind (fun md => (parseReg y).map (.inv md))
    else if mn = ['C', 'O', 'L'] then (parseReg x).bind (fun ms => (parseImm y).map (.col ms))
    else none
  | _ => none

/-- The command a line names, before the range of its immediate is checked. -/
def parseLine (cs : List Char) : Option Instr :=
  let line := trimBlanks (dropComment cs)
  let rest := trimBlanks (line.dropWhile (fun c => !isBlank c))
  parseOperands ((line.takeWhile (fun c => !isBlank c)).map upperCase)
    (if rest.isEmpty then [] else (splitCommas rest).map trimBlanks)

/-- The word of a command line, or nothing where the assembler refuses it (30_encoding.md R56). -/
def assembleLine (cs : List Char) : Option Word := (parseLine cs).bind assemble

end Sys2Proof.Machine
end

