-- ==== Sys2Proof/Machine/HostText.lean ====
section
/-! DEFINITION. The text of a host program's lines: the forms of 30_encoding.md R57 and the pseudo-instructions of R58. What
the two rules leave open is in notes/assumptions/12.md. -/

namespace Sys2Proof.Machine

/-- The text before the first `c` and the text after it. -/
def splitAt (c : Char) : List Char → Option (List Char × List Char)
  | [] => none
  | x :: xs => if x == c then some ([], xs) else (splitAt c xs).map (fun p => (x :: p.1, p.2))

/-- The text around the first arrow `->`. -/
def splitArrow : List Char → Option (List Char × List Char)
  | '-' :: '>' :: xs => some ([], xs)
  | [] => none
  | x :: xs => (splitArrow xs).map (fun p => (x :: p.1, p.2))

/-- An index in brackets at the front of a text, and the text after it. That the index is decimal digits only, with no blank
and no `0x` inside the brackets, is a DESIGN CHOICE, since R57 does not say (notes/assumptions/12.md). -/
def takeIndex : List Char → Option (Nat × List Char)
  | '[' :: cs => (splitAt ']' cs).bind (fun p => (parseDigits 10 p.1).map (fun n => (n, p.2)))
  | _ => none

/-- A register with no index, by its name in the register map (20_memory.md R32). -/
def plainRegister (name : List Char) : Option Reg :=
  if name = ['I', 'D'] then some .id
  else if name = ['P', 'A', 'R', 'A', 'M'] then some .param
  else if name = ['C', 'T', 'R', 'L'] then some .ctrl
  else if name = ['S', 'T', 'A', 'T', 'U', 'S'] then some .status
  else if name = ['C', 'M', 'D'] then some .cmd
  else if name = ['O', 'P', 'E', 'R', 'A', 'N', 'D'] then some .operand
  else if name = ['S', 'C', 'A', 'L', 'A', 'R', '_', 'O', 'U', 'T'] then some .scalarOut
  else none

/-- A matrix register number. -/
def matrixNumber (k : Nat) : Option MNum := if k < 4 then some (Fin.ofNat 4 k) else none

/-- A register with indices, by its name in the register map (20_memory.md R32). -/
def indexedRegister (name : List Char) (i : Nat) (rest : List Char) : Option Reg :=
  if rest.isEmpty then
    if name = ['M', 'D', 'I', 'M'] then (matrixNumber i).map .mdim
    else if name = ['S', 'T', 'A', 'G', 'E'] then some (.stage i)
    else if name = ['V', 'E', 'C', '_', 'O', 'U', 'T'] then some (.vecOut i)
    else none
  else if name = ['M', 'E', 'L', 'E', 'M'] then
    match takeIndex rest with
    | some (j, []) => (matrixNumber i).map (fun k => .melem k j)
    | _ => none
  else none

/-- `<reg>`: "a name from 20_memory.md rule R32, such as `STAGE[3]` or `CMD`, or a hex word address". -/
def parseRegister (cs : List Char) : Option WAddr :=
  if cs.take 2 = ['0', 'x'] then
    (parseDigits 16 (cs.drop 2)).bind (fun n => if n < 512 then some (BitVec.ofNat 9 n) else none)
  else
    match takeIndex (cs.dropWhile (fun c => c != '[')) with
    | some (i, rest) => (indexedRegister (cs.takeWhile (fun c => c != '[')) i rest).bind regAddr
    | none => (plainRegister cs).bind regAddr

/-- An integer: decimal with a `-` or without, or hexadecimal with `0x` and no sign. R57 and R58 give no syntax of a number,
so these are a DESIGN CHOICE: no `-` before `0x` and no leading `+` (notes/assumptions/12.md), and a hexadecimal literal is
the non-negative integer it writes (notes/assumptions/13.md). -/
def parseInt (cs : List Char) : Option Int :=
  match cs with
  | '-' :: ds => (parseDigits 10 ds).map (fun n => -(n : Int))
  | _ => (parseImm cs).map (fun n => (n : Int))

/-- `<value>`: a 32-bit word, written as a number below 2^32, or as a negative one from -2^31 on
(notes/assumptions/12.md). -/
def parseValue (cs : List Char) : Option Word :=
  (parseInt cs).bind (fun n => if -2 ^ 31 ≤ n ∧ n < 2 ^ 32 then some (BitVec.ofInt 32 n) else none)

/-- A label or a host variable: any text without blanks. -/
def parseName (cs : List Char) : Option HostName :=
  if cs.isEmpty || cs.any isBlank then none else some (.named cs)

/-- `[v0, ..., vL-1]`, each the `<value>` of the `WR` that it expands to (30_encoding.md R58). -/
def parseValues (cs : List Char) : Option (List Word) :=
  match cs with
  | '[' :: xs =>
    (splitAt ']' xs).bind (fun p =>
      if !p.2.isEmpty then none
      else if (trimBlanks p.1).isEmpty then some []
      else (splitCommas p.1).mapM (fun v => parseValue (trimBlanks v)))
  | _ => none

/-- `ISSUE <cmd>` or `ISSUE .word <hex>`. That `.word` is in lower case, that its hexadecimal number starts with `0x`, and
that no blank need stand between them is a DESIGN CHOICE, since R57 does not say (notes/assumptions/12.md). -/
def parseIssue (cs : List Char) : Option PseudoStmt :=
  if cs.take 5 = ['.', 'w', 'o', 'r', 'd'] then
    let hex := trimBlanks (cs.drop 5)
    if hex.take 2 = ['0', 'x'] then (parseValue hex).map .issueWord else none
  else (parseLine cs).map .issue

/-- `BNZ <var>[b], <label>`. -/
def parseBnz (cs : List Char) : Option PseudoStmt :=
  (splitAt ',' cs).bind (fun p =>
    match takeIndex ((trimBlanks p.1).dropWhile (fun c => c != '[')) with
    | some (b, []) =>
      if b < 32 then
        (parseName ((trimBlanks p.1).takeWhile (fun c => c != '['))).bind (fun v =>
          (parseName (trimBlanks p.2)).map (fun l => .plain (.bnz v (Fin.ofNat 32 b) l)))
      else none
    | _ => none)

/-- An operation of the host, by its mnemonic in capitals and the text after it. -/
def parseOperation (mn rest : List Char) : Option PseudoStmt :=
  if mn = ['W', 'R'] then
    (splitAt ',' rest).bind (fun p =>
      (parseRegister (trimBlanks p.1)).bind (fun a => (parseValue (trimBlanks p.2)).map (fun w => .plain (.wr a w))))
  else if mn = ['R', 'D'] then
    (splitArrow rest).bind (fun p =>
      (parseRegister (trimBlanks p.1)).bind (fun a => (parseName (trimBlanks p.2)).map (fun v => .plain (.rd a v))))
  else if mn = ['B', 'N', 'Z'] then parseBnz rest
  else if mn = ['I', 'S', 'S', 'U', 'E'] then parseIssue rest
  else if mn = ['W', 'A', 'I', 'T'] then (if rest.isEmpty then some .wait else none)
  else if mn = ['C', 'A', 'L', 'L'] then (parseLine rest).map .call
  else if mn = ['L', 'O', 'A', 'D', 'M'] then
    (splitAt ',' rest).bind (fun p =>
      (parseReg (trimBlanks p.1)).bind (fun md => (parseValues (trimBlanks p.2)).map (.loadm md)))
  else if mn = ['W', 'R', 'I'] then (parseInt rest).map .wri
  else none

/-- A line without its label: nothing, or one operation. -/
def parseStatement (line : List Char) : Option (List PseudoStmt) :=
  if line.isEmpty then some []
  else
    (parseOperation ((line.takeWhile (fun c => !isBlank c)).map upperCase)
      (trimBlanks (line.dropWhile (fun c => !isBlank c)))).map (fun p => [p])

/-- A line of a host program: a label or none, an operation or none, a comment or none. -/
def parseHostLine (cs : List Char) : Option (List PseudoStmt) :=
  let line := trimBlanks (dropComment cs)
  match splitAt ':' line with
  | some (l, rest) =>
    (parseName l).bind (fun n => (parseStatement (trimBlanks rest)).map (fun p => .plain (.label n) :: p))
  | none => parseStatement line

/-- The host operations that the lines of a program stand for. -/
def assembleProgram (lines : List (List Char)) : Option (List HostStmt) :=
  (lines.mapM parseHostLine).bind (fun l => expandFrom 0 l.flatten)

end Sys2Proof.Machine
end

