-- ==== Sys2Proof/Tests/Slice0.lean ====
section
/-! SUPPORT. Tests of the model, each one step with the values of 95_test_vectors.md or of the rule its comment names, and
for every statement with hypotheses a named witness that meets them. -/

namespace Sys2Proof.Tests

open Sys2Proof Sys2Proof.Machine Sys2Proof.Claims

/-! ### Small states -/

/-- Residues from numbers. -/
def res (l : List Nat) : List Residue := l.map (BitVec.ofNat 5)

/-- The reset state with a matrix of dimension `n` in `m0`. -/
def holding (n : Nat) (l : List Nat) : State :=
  State.reset.setMatrix 0 { dim := n, e := padTo 16 (res l) }

/-- The reset state with the command word `w` in flight. -/
def inFlight (w : Word) : State := State.reset.accept w

/-- The reset state with the first staging words as given. -/
def staged (l : List Int) : State :=
  { State.reset with stage := l.map (BitVec.ofInt 32) ++ List.replicate (16 - l.length) 0 }

/-- The identity of dimension 4, row by row. -/
def ident4 : List Nat := [1, 0, 0, 0, 0, 1, 0, 0, 0, 0, 1, 0, 0, 0, 0, 1]

/-- A property of the state an outcome goes on in. -/
def goesTo (o : Outcome) (p : State → Bool) : Bool :=
  match nextOf o with
  | some t => p t
  | none => false

/-- STATUS, as its word, after an outcome. -/
def statusIs (w : Word) (t : State) : Bool := t.status.word == w

/-- The content of a matrix register. -/
def holds (k : MNum) (n : Nat) (l : List Nat) (t : State) : Bool := t.matrix k == { dim := n, e := padTo 16 (res l) }

/-! ### Well-formedness: each check refuses an ill-formed command (30_encoding.md R56) -/

theorem test_wf_build_len_too_large : (Instr.build 0 256).wf = false := by decide
theorem test_wf_build_len_largest : (Instr.build 0 255).wf = true := by decide
theorem test_wf_col_index_too_large : (Instr.col 0 256).wf = false := by decide
theorem test_wf_col_index_largest : (Instr.col 0 255).wf = true := by decide
theorem test_assemble_refuses : assemble (.build 0 256) = none ∧ assemble (.col 3 256) = none := by decide

/-! ### Decoding: words written out from the fields of 30_encoding.md R50, `{RSV, IMM, MS, MD, OP}` -/

theorem test_decode_nop : decodeCmd 0b0000000000000000_00000000_00_00_0000 = .ok .nop := by decide
theorem test_decode_norm : decodeCmd 0b0000000000000000_00000000_00_00_0001 = .ok .norm := by decide
theorem test_decode_rinv : decodeCmd 0b0000000000000000_00000000_00_00_0010 = .ok .rinv := by decide
theorem test_decode_build : decodeCmd 0b0000000000000000_00001001_00_10_0011 = .ok (.build 2 9) := by decide
theorem test_decode_det : decodeCmd 0b0000000000000000_00000000_11_00_0100 = .ok (.det 3) := by decide
theorem test_decode_inv : decodeCmd 0b0000000000000000_00000000_10_01_0101 = .ok (.inv 1 2) := by decide
theorem test_decode_col : decodeCmd 0b0000000000000000_10000001_01_00_0110 = .ok (.col 1 129) := by decide
theorem test_decode_dim : decodeCmd 0b0000000000000000_00000000_10_00_0111 = .ok (.dim 2) := by decide

/-- The illegal words of V-DECODE that the sample statement does not name. -/
theorem test_decode_illegal :
    decodeCmd 0x00000100 = .error .fieldNonzero ∧ decodeCmd 0x00000041 = .error .fieldNonzero ∧
    decodeCmd 0x00000402 = .error .fieldNonzero ∧ decodeCmd 0x00000104 = .error .fieldNonzero ∧
    decodeCmd 0x00000016 = .error .fieldNonzero ∧ decodeCmd 0x00000107 = .error .fieldNonzero ∧
    decodeCmd 0x0000000F = .error .reservedOpcode ∧ decodeCmd 0x80000005 = .error .rsvNonzero ∧
    decodeCmd 0xFFFFFFFF = .error .rsvNonzero := by decide

theorem test_decode_table_word :
    decodeTableWord 32 0x15 = some (.inv 1 0) ∧ decodeTableWord 8 0x15 = some (.inv 1 0) ∧
    decodeTableWord 40 0x0100000000 = none := by decide

/-- Encodings of the programs P1 to P4. -/
theorem test_encode :
    encode (.build 0 4) = 0x00000403 ∧ encode (.inv 1 0) = 0x00000015 ∧ encode (.det 1) = 0x00000044 ∧
    encode (.col 1 2) = 0x00000246 ∧ encode (.inv 3 3) = 0x000000F5 ∧ encode (.dim 3) = 0x000000C7 := by decide

/-! ### The assembler's lines (30_encoding.md R56) -/

theorem test_line_build :
    assembleLine ['b', 'u', 'i', 'l', 'd', ' ', 'm', '1', ',', ' ', '0', 'x', '1', '0', ' ', ';', 'x'] =
      some 0x00001013 := by decide
theorem test_line_inv : assembleLine ['I', 'N', 'V', ' ', 'm', '1', ',', 'm', '0'] = some 0x00000015 := by decide
theorem test_line_refuses_register : assembleLine ['D', 'E', 'T', ' ', 'm', '4'] = none := by decide
theorem test_line_refuses_immediate :
    assembleLine ['C', 'O', 'L', ' ', 'm', '2', ',', '2', '5', '6'] = none := by decide

/-- LOADM of one value: the staging write, the BUILD, and WAIT (30_encoding.md R58). -/
theorem test_expand_loadm :
    (PseudoStmt.loadm 2 [0xFFFFFFFF]).expand 7 =
      some [.wr 0x040 0xFFFFFFFF, .wr 0x004 0x00000123, .label (.fresh 7), .rd 0x003 (.fresh 7),
        .bnz (.fresh 7) 0 (.fresh 7)] := by decide

/-- `w1: RD STATUS -> t ; loop` and `BNZ t[0], w1` of program P1 (30_encoding.md R57). -/
theorem test_host_line_loop :
    parseHostLine ['w', '1', ':', ' ', 'R', 'D', ' ', 'S', 'T', 'A', 'T', 'U', 'S', ' ', '-', '>', ' ', 't', ' ', ';'] =
      some [.plain (.label (.named ['w', '1'])), .plain (.rd 0x003 (.named ['t']))] ∧
    parseHostLine ['B', 'N', 'Z', ' ', 't', '[', '0', ']', ',', ' ', 'w', '1'] =
      some [.plain (.bnz (.named ['t']) 0 (.named ['w', '1']))] := by decide
/-- `WR MELEM[1][2], -1` and `LOADM m0, [3, -2]` (30_encoding.md R57, R58). -/
theorem test_host_line_operands :
    parseHostLine ['W', 'R', ' ', 'M', 'E', 'L', 'E', 'M', '[', '1', ']', '[', '2', ']', ',', ' ', '-', '1'] =
      some [.plain (.wr 0x142 0xFFFFFFFF)] ∧
    parseHostLine ['L', 'O', 'A', 'D', 'M', ' ', 'm', '0', ',', ' ', '[', '3', ',', ' ', '-', '2', ']'] =
      some [.loadm 0 [3, 0xFFFFFFFE]] := by decide
/-- A value of `LOADM` is a value of `WR`: the word of I7 (95_test_vectors.md; 30_encoding.md R58). -/
theorem test_host_line_loadm_word :
    parseHostLine ['L', 'O', 'A', 'D', 'M', ' ', 'm', '1', ',', ' ', '[', '0', 'x', 'F', 'F', 'F', 'F', 'F', 'F', 'E', '5', ']'] =
      some [.loadm 1 [0xFFFFFFE5]] := by decide
/-- `ISSUE .word 0x00010000` of program P3, and a command line after `CALL`. -/
theorem test_host_line_issue :
    parseHostLine ['I', 'S', 'S', 'U', 'E', ' ', '.', 'w', 'o', 'r', 'd', ' ', '0', 'x', '1', '0', '0', '0', '0'] =
      some [.issueWord 0x00010000] ∧
    parseHostLine ['C', 'A', 'L', 'L', ' ', 'C', 'O', 'L', ' ', 'm', '1', ',', ' ', '2'] = some [.call (.col 1 2)] := by
  decide

/-- WAIT around a command in flight ends once the engine has had its turn (30_encoding.md R58,
70_reset_and_hazards.md R171, R177). -/
theorem test_wait_ends :
    (System.run [true, true, true, false, true, true, true]
      { hw := inFlight 0x00000000, host := { prog := expandWait 0, pos := 0, vars := [] } }).ended = true := by decide

/-! ### The commands, one step each (V-NORM to V-NOP) -/

theorem test_norm_negative :
    goesTo (exec .norm { State.reset with operand := 0xFFFFFF9C }) (fun t => t.scalarOut == 4 && statusIs 2 t) = true := by
  decide
theorem test_norm_least :
    goesTo (exec .norm { State.reset with operand := 0x80000000 }) (fun t => t.scalarOut == 2) = true := by decide
theorem test_rinv_negative :
    goesTo (exec .rinv { State.reset with operand := 0xFFFFFFE9 }) (fun t => t.scalarOut == 9) = true := by decide
theorem test_rinv_sentinel :
    goesTo (exec .rinv { State.reset with operand := 39, scalarOut := 5 })
      (fun t => t.scalarOut == 0 && statusIs 2 t) = true := by decide
theorem test_build_folds :
    goesTo (exec (.build 2 4) (staged [-1, -26, 27, 2147483647])) (fun t => holds 2 2 [25, 0, 1, 23] t) = true := by decide
theorem test_build_shrinks :
    goesTo (exec (.build 0 4) { holding 3 [1, 2, 3, 4, 5, 6, 7, 8, 9] with stage := (staged [3, 2, 5, 7]).stage })
      (fun t => holds 0 2 [3, 2, 5, 7] t && statusIs 2 t) = true := by decide
theorem test_det_three :
    goesTo (exec (.det 0) (holding 3 [1, 2, 3, 4, 5, 6, 7, 8, 10])) (fun t => t.scalarOut == 23) = true := by decide
theorem test_det_swapped_rows :
    goesTo (exec (.det 0) (holding 4 [0, 1, 0, 0, 1, 0, 0, 0, 0, 0, 1, 0, 0, 0, 0, 1]))
      (fun t => t.scalarOut == 25 && statusIs 2 t) = true := by decide
theorem test_inv_three_in_place :
    goesTo (exec (.inv 0 0) (holding 3 [6, 24, 1, 13, 16, 10, 20, 17, 15]))
      (fun t => holds 0 3 [8, 5, 10, 21, 8, 21, 21, 12, 8] t) = true := by decide
theorem test_inv_four :
    goesTo (exec (.inv 1 0) (holding 4 [2, 1, 0, 0, 1, 2, 1, 0, 0, 1, 2, 1, 0, 0, 1, 2]))
      (fun t => holds 1 4 [6, 15, 16, 5, 11, 4, 6, 10, 16, 20, 22, 15, 21, 10, 11, 20] t) = true := by decide
theorem test_col_pads :
    goesTo (exec (.col 0 2) (holding 3 [1, 2, 3, 4, 5, 6, 7, 8, 9])) (fun t => t.vecOut == [3, 6, 9, 0]) = true := by decide
theorem test_col_index :
    goesTo (exec (.col 0 1) (holding 1 [7])) (fun t => statusIs 0x52 t && t.vecOut == [0, 0, 0, 0]) = true := by decide
theorem test_dim_four :
    goesTo (exec (.dim 0) (holding 4 ident4)) (fun t => t.scalarOut == 4 && statusIs 2 t) = true := by decide
theorem test_dim_empty :
    goesTo (exec (.dim 0) { State.reset with scalarOut := 9 }) (fun t => t.scalarOut == 9 && statusIs 0x42 t) = true := by
  decide
theorem test_nop_keeps_overrun :
    goesTo (exec .nop { State.reset with status := { busy := true, done := false, ovr := true, err := .singular } })
      (statusIs 6) = true := by decide
theorem test_step_runs_word :
    goesTo (step (State.reset.withFetchWord 32 0x00010000)) (fun t => statusIs 0x62 t && t.cmd == 0x00010000) = true := by
  decide

/-- `fail` codes of V-BUILD and V-INV. -/
theorem test_error_codes :
    goesTo (exec (.build 1 5) State.reset) (statusIs 0x12) = true ∧
    goesTo (exec (.build 1 25) State.reset) (statusIs 0x32) = true ∧
    goesTo (exec (.inv 1 0) (holding 2 [2, 4, 1, 2])) (statusIs 0x22) = true := by decide

/-! ### The port (V-IFACE) -/

theorem test_param : (State.reset.hostRead 0x001).rdata = 0x00000144 := by decide
theorem test_accept_keeps_error :
    (({ State.reset with status := { busy := false, done := true, ovr := false, err := .index } } : State).hostWrite
      0x004 0).status.word = 0x51 := by decide
theorem test_status_clears_by_one :
    (({ State.reset with status := { busy := false, done := true, ovr := true, err := .dimension } } : State).hostWrite
      0x003 0xFFFFFFFF).status.word = 0x30 := by decide
theorem test_overrun_unimplemented_slot :
    ((inFlight 0).hostWrite 0x07F 1).status.word = 0x5 ∧ ((inFlight 0).hostWrite 0x007 1).status.word = 0x1 := by decide
theorem test_stage_reads_back_raw :
    ((State.reset.hostWrite 0x043 0xFFFFFFE5).hostRead 0x043).rdata = 0xFFFFFFE5 := by decide
/-- The registers' own words: `MELEM[1][2]`, `SCALAR_OUT`, `MDIM[0]`, `VEC_OUT[3]` (20_memory.md R32). -/
theorem test_reads_own_field :
    ((State.reset.setMatrix 1 { dim := 2, e := padTo 16 (res [3, 14, 9, 5]) }).hostRead 0x142).rdata = 9 ∧
    ((State.reset.setScalarOut 19).hostRead 0x006).rdata = 19 ∧ ((holding 4 ident4).hostRead 0x008).rdata = 4 ∧
    ((State.reset.setVecOut [1, 2, 3, 4]).hostRead 0x083).rdata = 4 := by decide
theorem test_melem_last : ((holding 4 ident4).hostRead 0x10F).rdata = 1 ∧ ((holding 4 ident4).hostRead 0x110).rdata = 0 := by
  decide
theorem test_irq_line :
    ({ State.reset with ctrl := { ie := true }, status := State.reset.status.committed .ok } : State).irqLine 0 = true := by
  decide
theorem test_lanes_little_endian : lanesWord 0x11 0x22 0x33 0x44 = 0x44332211 ∧ byteLane 0x44332211 3 = 0x44 := by decide
theorem test_minor : minor (res [1, 2, 3, 4, 5, 6, 7, 8, 9]) 3 1 2 = res [1, 2, 7, 8] := by decide
theorem test_transpose : transpose (res [1, 2, 3, 4, 5, 6, 7, 8, 9]) 3 = res [1, 4, 7, 2, 5, 8, 3, 6, 9] := by decide

/-! ### Witnesses: states and operands that meet the hypotheses of each statement, and of each of its clauses -/

/-- A matrix register's condition, as a check. -/
def okCheck (c : Config) (m : MReg) : Bool :=
  decide (m.dim ≤ c.nMax) && decide (m.e.length = c.slots) && m.e.all (fun r => decide (r.toNat < 26)) &&
    (List.range c.slots).all (fun i => decide (i < m.dim * m.dim) || elem m.e i == 0)

theorem ok_of_check {c : Config} {m : MReg} (h : okCheck c m = true) : m.Ok c := by
  simp only [okCheck, Bool.and_eq_true, decide_eq_true_eq, List.all_eq_true, Bool.or_eq_true, beq_iff_eq,
    List.mem_range] at h
  obtain ⟨⟨⟨h1, h2⟩, h3⟩, h4⟩ := h
  refine ⟨h1, h2, fun i => ?_, fun i hi => ?_⟩
  · by_cases hl : i < m.e.length
    · have : elem m.e i = m.e[i] := by simp [elem, hl]
      rw [this]
      exact h3 _ (List.getElem_mem hl)
    · rw [elem_of_length_le (Nat.le_of_not_lt hl)]
      decide
  · by_cases hl : i < c.slots
    · rcases h4 i hl with h | h
      · exact absurd h (Nat.not_lt_of_le hi)
      · exact h
    · exact elem_of_length_le (by omega)

theorem asMatrix_ident4 : asMatrix 4 (padTo 16 (res ident4)) = 1 := by
  ext r c
  fin_cases r <;> fin_cases c <;> rfl

theorem asMatrix_one : asMatrix 1 (padTo 16 (res [1])) = 1 := by
  ext r c
  fin_cases r
  fin_cases c
  rfl

theorem asMatrix_ident3 : asMatrix 3 (padTo 16 (res [1, 0, 0, 0, 1, 0, 0, 0, 1])) = 1 := by
  ext r c
  fin_cases r <;> fin_cases c <;> rfl

theorem asMatrix_key : Int.gcd (asMatrix 2 (padTo 16 (res [3, 2, 5, 7]))).det 26 = 1 := by
  rw [Matrix.det_fin_two]
  decide

theorem witness_DecodeOfEncode : (Instr.build 3 255).wf = true ∧ (Instr.col 3 255).wf = true ∧ (Instr.inv 3 3).wf = true := by
  decide
theorem witness_EncodeOfDecode : decodeCmd 0x0000FF33 = .ok (.build 3 255) := by decide
theorem witness_OpcodeTableSelectsByMask :
    (0x000000F5 : Word) &&& opcodeRows[(5 : Fin 8)].2.1 = opcodeRows[(5 : Fin 8)].1 := by decide
theorem witness_LegalWordsExactly : ∃ i, decodeCmd 0x0000FF86 = .ok i := ⟨.col 2 255, by decide⟩
theorem witness_AcceptWritesCmdBusyDone : State.reset.status.busy = false ∧ (inFlight 1).status.busy = true := by decide
theorem witness_StepRunsDecodedCommand :
    (inFlight 0x15).status.busy = true ∧ decodeCmd (inFlight 0x15).cmd = .ok (.inv 1 0) ∧ (inFlight 0x15).agenda = [] ∧
    ((inFlight 0x15).withAgenda [.engine]).agenda = .engine :: [] := by decide
theorem witness_IllegalWordCommitsIllegal :
    (inFlight 0x8).status.busy = true ∧ decodeCmd (inFlight 0x8).cmd = .error .reservedOpcode ∧ (inFlight 0x8).agenda = [] ∧
    ((inFlight 0x8).withAgenda [.engine]).agenda = .engine :: [] := by decide
theorem witness_FailedCommandWritesOnlyStatus :
    (∃ t, commitStep (inFlight 0x44) = .next t ∧ t.status.err ≠ .ok) ∧ State.reset.status.busy = false :=
  ⟨⟨_, rfl, by decide⟩, rfl⟩
theorem witness_RegisterMap :
    decodeAddr State.reset.cfg 0x04F = .stage 15 ∧ decodeAddr State.reset.cfg 0x050 = .reserved ∧
    decodeAddr State.reset.cfg 0x083 = .vecOut 3 ∧ decodeAddr State.reset.cfg 0x084 = .reserved ∧
    decodeAddr State.reset.cfg 0x1CF = .melem 3 15 ∧ decodeAddr State.reset.cfg 0x1D0 = .reserved ∧
    decodeAddr State.reset.cfg 0x00B = .mdim 3 ∧ decodeAddr State.reset.cfg 0x00C = .reserved ∧
    decodeAddr State.reset.cfg 0x007 = .reserved := by decide
theorem witness_ControlRegister : ({ State.reset with ctrl := { ie := true } } : State).ctrl.ie = true := by decide
theorem witness_ReservedAddresses :
    decodeAddr (inFlight 0).cfg 0x050 = .reserved ∧ (inFlight 0).status.busy = true ∧ 0x040 ≤ (0x050 : WAddr).toNat ∧
    (0x07F : WAddr).toNat ≤ 0x07F ∧ decodeAddr (inFlight 0).cfg 0x07F = .reserved ∧
    decodeAddr State.reset.cfg 0x03F = .reserved ∧ ¬0x040 ≤ (0x03F : WAddr).toNat := by decide
theorem witness_ReadOnlyWritesIgnored :
    decodeAddr State.reset.cfg 0x000 = .id ∧ decodeAddr State.reset.cfg 0x001 = .param ∧
    decodeAddr State.reset.cfg 0x006 = .scalarOut ∧ decodeAddr State.reset.cfg 0x008 = .mdim 0 ∧
    decodeAddr State.reset.cfg 0x080 = .vecOut 0 ∧ decodeAddr State.reset.cfg 0x100 = .melem 0 0 := by decide
theorem witness_IdleInputWrites :
    State.reset.status.busy = false ∧ 15 < State.reset.cfg.nMax * State.reset.cfg.nMax := by decide
theorem witness_OverrunDiscardsTheWrite :
    (inFlight 1).status.busy = true ∧ (0x040 ≤ (0x040 : WAddr).toNat ∧ (0x07F : WAddr).toNat ≤ 0x07F) ∧
    goesTo (commitStep (inFlight 1)) (fun _ => true) = true ∧
    (inFlight 1).overrun.status.ovr = true ∧
    goesTo (eventStep (.host (.write 0x003 4)) (inFlight 1).overrun) (fun t => !t.status.ovr) = true ∧
    goesTo (eventStep .reset (inFlight 1).overrun) (fun t => !t.status.ovr) = true := by decide
/-- NORM's destination is `SCALAR_OUT`; `CMD` is none. The last staging, vector and matrix words are in range. -/
theorem witness_ReadsWhileBusy :
    (inFlight 1).status.busy = true ∧ destination (inFlight 1) (0x006 : WAddr).toNat ∧
    ¬((inFlight 1).status.busy = true ∧ destination (inFlight 1) (0x004 : WAddr).toNat) ∧
    15 < (inFlight 1).cfg.nMax * (inFlight 1).cfg.nMax ∧ 3 < (inFlight 1).cfg.nMax :=
  ⟨rfl, (rfl : (0x006 : WAddr).toNat = 0x006), fun h => (by decide : ¬(0x004 : WAddr).toNat = 0x006) h.2, by decide,
    by decide⟩
theorem witness_ReadsHaveNoSideEffect :
    ¬((inFlight 1).status.busy = true ∧ destination (inFlight 1) (0x003 : WAddr).toNat) :=
  fun h => (by decide : ¬(0x003 : WAddr).toNat = 0x006) h.2
theorem witness_BridgeForwardsWholeWords :
    State.reset.cfg.md26Base % 4 = 0 ∧ 3 < 4 ∧ 2 % 4 ≠ 0 ∧ 2 ≠ 4 ∧ ([1, 2] : List (BitVec 8)).length ≠ 4 ∧
    State.reset.cfg.md26Base + 2048 ≤ 2048 ∧
    0 < ({ State.reset with cfg := { Config.reference with md26Base := 4 } } : State).cfg.md26Base := by decide
theorem witness_ResetSetsEveryPieceOfState :
    (inFlight 0x403).resetStep = (inFlight 0x403).resetStep ∨ (inFlight 0x403).resetStep = State.reset := .inl rfl
theorem witness_EachAgendaEntryIsOneStep :
    (State.reset.withAgenda [.host (.read 0x003)]).agenda = .host (.read 0x003) :: [] ∧
    (State.reset.withAgenda [.host (.write 0x004 1)]).agenda = .host (.write 0x004 1) :: [] ∧
    (State.reset.withAgenda [.bus (.read 16 4)]).agenda = .bus (.read 16 4) :: [] ∧
    ((inFlight 0x403).withAgenda [.reset]).agenda = .reset :: [] := by decide
theorem witness_PseudoInstructionExpansions :
    assemble (.build 0 255) = some 0x0000FF03 ∧ (-2147483648 : ℤ) ≤ -2147483648 ∧ (2147483647 : ℤ) ≤ 2147483647 ∧
    (List.replicate 64 (0xFFFFFFE5 : Word)).length ≤ 64 := by decide
theorem matrix_reset (k : MNum) : (State.reset.matrix k).Ok State.reset.cfg := by
  apply ok_of_check
  revert k
  decide

theorem inv_reset : State.reset.Inv where
  matrices := matrix_reset
  stage_length := by decide
  vecOut_length := by decide
  scalarOut_lt := by decide
  vecOut_lt j := by
    by_cases h : j < 4
    · interval_cases j <;> decide
    · rw [List.getD_eq_default _ _ (by simp [State.reset, State.resetWith, Config.reference]; omega)]
      decide
  busy_not_done := by decide

theorem witness_EveryStepKeepsInvariant : State.reset.Inv ∧ ∃ t, step State.reset = .next t := ⟨inv_reset, _, rfl⟩
theorem witness_MatrixChangesOnlyByBuildInvReset :
    goesTo (step (State.reset.withFetchWord 32 0x00000103)) (fun t => decide (t.matrix 0 ≠ State.reset.matrix 0)) = true := by
  decide
theorem witness_BusyChangesOnlyAtAcceptCommitReset :
    State.reset.status.busy = false ∧
    goesTo (step (State.reset.withAgenda [.host (.write 0x004 1)])) (fun t => t.status.busy) = true ∧
    (inFlight 1).status.busy = true ∧ goesTo (step (inFlight 1)) (fun t => !t.status.busy) = true ∧
    goesTo (step ((inFlight 1).withAgenda [.reset])) (fun t => !t.status.busy) = true := by decide
theorem witness_IdleStateHolds :
    State.reset.status.busy = false ∧ State.reset.agenda = [] ∧ (State.reset.withAgenda [.engine]).agenda = .engine :: [] := by
  decide
theorem witness_InputsHeldWhileBusy :
    (∃ t, step ((inFlight 1).withAgenda [.host (.write 0x005 7)]) = .next t) ∧
    ((inFlight 1).withAgenda [.host (.write 0x005 7)]).status.busy = true ∧
    ¬resetIsNext ((inFlight 1).withAgenda [.host (.write 0x005 7)]) :=
  ⟨⟨_, rfl⟩, rfl, fun ⟨_, h⟩ => by cases h⟩
theorem witness_IrqRisesOnlyAtCommitOrEnable :
    goesTo (step { inFlight 0 with ctrl := { ie := true } }) (fun t => t.irq) = true ∧
    ({ inFlight 0 with ctrl := { ie := true } } : State).irq = false ∧
    goesTo (step { State.reset with status := State.reset.status.committed .ok, agenda := [.host (.write 0x002 1)] })
      (fun t => t.irq) = true := by decide
theorem witness_SafeRunsNeverOverrun :
    SafeRun 2 ((inFlight 1).withAgenda [.host (.read 0x003)]) ∧ (inFlight 1).status.ovr = false ∧
    ∃ t, runFor 2 ((inFlight 1).withAgenda [.host (.read 0x003)]) = .next t :=
  ⟨⟨rfl, fun t h => by cases h; exact ⟨rfl, fun _ _ => trivial⟩⟩, rfl, _, rfl⟩
theorem witness_BuildResult :
    (1 ≤ 4 ∧ 4 ≤ State.reset.cfg.nMax) ∧ (∀ n, n * n ≠ 2) ∧ (0 * 0 = 0 ∧ 5 * 5 = 25 ∧ State.reset.cfg.nMax < 5) ∧
    (0x00000043 : Word).toNat % 16 = 3 ∧ msNonzero 0x00000043 ∧ rsvNonzero 0x00010003 :=
  ⟨by decide, fun n h => by
    have : n < 2 := by nlinarith
    interval_cases n <;> omega, by decide, by decide, by unfold msNonzero; decide, by unfold rsvNonzero; decide⟩

theorem witness_DetResult :
    ((holding 4 ident4).matrix 0).dim ≠ 0 ∧ (State.reset.matrix 3).dim = 0 ∧ (0x00000014 : Word).toNat % 16 = 4 ∧
    mdNonzero 0x00000014 ∧ immNonzero 0x00000104 := by
  unfold mdNonzero immNonzero
  decide
/-- One state for each clause: an empty source, a singular one, and one with an inverse. -/
theorem witness_InvResult :
    (State.reset.matrix 0).dim = 0 ∧
    (((holding 2 [2, 4, 1, 2]).matrix 0).dim ≠ 0 ∧
      0 = invTab (normalize26 (val (det ((holding 2 [2, 4, 1, 2]).matrix 0).dim ((holding 2 [2, 4, 1, 2]).matrix 0).e)))) ∧
    (((holding 2 [3, 2, 5, 7]).matrix 0).dim ≠ 0 ∧
      19 = invTab (normalize26 (val (det ((holding 2 [3, 2, 5, 7]).matrix 0).dim ((holding 2 [3, 2, 5, 7]).matrix 0).e)))) ∧
    (0x00000105 : Word).toNat % 16 = 5 ∧ immNonzero 0x00000105 := by
  unfold immNonzero
  decide
/-- One state where the determinant is 0 and one where it is 1. -/
theorem witness_InvSingular :
    ((holding 2 [2, 4, 1, 2]).matrix 0).dim ≠ 0 ∧ ((holding 2 [2, 4, 1, 2]).matrix 0).Ok State.reset.cfg ∧
    ((holding 4 ident4).matrix 0).dim ≠ 0 ∧ ((holding 4 ident4).matrix 0).Ok State.reset.cfg :=
  ⟨by decide, ok_of_check (by decide), by decide, ok_of_check (by decide)⟩
theorem witness_ColResult :
    0 < ((holding 1 [7]).matrix 0).dim ∧ ((holding 1 [7]).matrix 0).dim ≠ 0 ∧ ((holding 1 [7]).matrix 0).dim ≤ 1 ∧
    (State.reset.matrix 1).dim = 0 ∧ (0x00000016 : Word).toNat % 16 = 6 ∧ mdNonzero 0x00000016 := by
  unfold mdNonzero
  decide
theorem witness_DimResult :
    ((holding 1 [7]).matrix 0).dim ≠ 0 ∧ (State.reset.matrix 0).dim = 0 ∧ (0x00000107 : Word).toNat % 16 = 7 ∧
    immNonzero 0x00000107 := by
  unfold immNonzero
  decide
/-- Words with the opcodes of NOP, NORM and RINV that are illegal. -/
theorem witness_NopNormRinvResult :
    (0x00000010 : Word).toNat % 16 = 0 ∧ (0x00000010 : Word) ≠ 0 ∧ (0x00000041 : Word).toNat % 16 = 1 ∧
    (0x00000041 : Word) ≠ 1 ∧ (0x00000402 : Word).toNat % 16 = 2 ∧ (0x00000402 : Word) ≠ 2 := by decide

theorem witness_ScalarCommandsFrame :
    (∃ t, exec .norm State.reset = .next t) ∧ (∃ t, exec .rinv State.reset = .next t) ∧
    (∃ t, exec (.det 0) (holding 1 [7]) = .next t) ∧ (∃ t, exec (.dim 0) (holding 1 [7]) = .next t) ∧
    (0x0FF : WAddr) ≠ 0x003 ∧ (0x0FF : WAddr) ≠ 0x006 :=
  ⟨⟨_, rfl⟩, ⟨_, rfl⟩, ⟨_, rfl⟩, ⟨_, rfl⟩, by decide, by decide⟩
theorem witness_MatrixCommandsFrame :
    (∃ t, exec (.build 0 1) State.reset = .next t) ∧ (∃ t, exec (.inv 0 0) (holding 1 [7]) = .next t) ∧ (1 : MNum) ≠ 0 ∧
    (0x140 : WAddr) ≠ 0x003 ∧ (0x140 : WAddr).toNat ≠ 0x008 + (0 : MNum).val ∧
    ¬(0x100 + 64 * (0 : MNum).val ≤ (0x140 : WAddr).toNat ∧ (0x140 : WAddr).toNat < 0x100 + 64 * (0 : MNum).val + 64) :=
  ⟨⟨_, rfl⟩, ⟨_, rfl⟩, by decide, by decide, by decide, by decide⟩
theorem witness_ColAndNopFrame :
    (∃ t, exec (.col 0 0) (holding 1 [7]) = .next t) ∧ (∃ t, exec .nop State.reset = .next t) ∧ (0x088 : WAddr) ≠ 0x003 ∧
    ¬(0x080 ≤ (0x088 : WAddr).toNat ∧ (0x088 : WAddr).toNat ≤ 0x087) :=
  ⟨⟨_, rfl⟩, ⟨_, rfl⟩, by decide, by decide⟩
theorem witness_NormalizeIsEuclidean : (-26 : ℤ) < 0 ∧ (-27 : ℤ) < 0 := by decide
theorem witness_InverseLookup :
    (25 : Residue).toNat < 26 ∧ invTab 25 ≠ 0 ∧ (∀ t : Fin 26, 1 ≤ t.val → ((13 : Residue).toNat * t.val) % 26 ≠ 1) := by decide
theorem witness_MinorDeletesRowAndColumn : 2 ≤ 2 ∧ 0 < 2 ∧ 1 < 2 ∧ 0 < 2 - 1 := by decide
theorem witness_TransposeSwapsRowsAndColumns : 0 < 1 ∧ 2 < 3 := by decide
theorem witness_DetExpandsAlongFirstRow : 2 < 3 := by decide
theorem witness_DetIsTextbookDeterminant : 1 ≤ 1 ∧ ∀ i, (elem (padTo 16 (res [25])) i).toNat < 26 :=
  ⟨by decide, (ok_of_check (c := Config.reference) (m := { dim := 1, e := padTo 16 (res [25]) }) (by decide)).residues⟩
theorem witness_ReductionScheduleIsFree : 1 ≤ 4 ∧ ∀ i, (elem (padTo 16 (res ident4)) i).toNat < 26 :=
  ⟨by decide, (ok_of_check (c := Config.reference) (m := { dim := 4, e := padTo 16 (res ident4) }) (by decide)).residues⟩
/-- Dimensions 1, 2 and 3. -/
theorem witness_InvIsTrueInverse :
    (((holding 1 [1]).matrix 0).Ok State.reset.cfg ∧ ((holding 1 [1]).matrix 0).dim = 1 ∧ (1 = 2 ∨ 1 % 2 = 1) ∧
      Int.gcd (asMatrix 1 ((holding 1 [1]).matrix 0).e).det 26 = 1) ∧
    (((holding 2 [3, 2, 5, 7]).matrix 0).Ok State.reset.cfg ∧ ((holding 2 [3, 2, 5, 7]).matrix 0).dim = 2 ∧
      Int.gcd (asMatrix 2 ((holding 2 [3, 2, 5, 7]).matrix 0).e).det 26 = 1) ∧
    ((holding 3 [1, 0, 0, 0, 1, 0, 0, 0, 1]).matrix 0).Ok State.reset.cfg ∧
      ((holding 3 [1, 0, 0, 0, 1, 0, 0, 0, 1]).matrix 0).dim = 3 ∧ 3 % 2 = 1 ∧
      Int.gcd (asMatrix 3 ((holding 3 [1, 0, 0, 0, 1, 0, 0, 0, 1]).matrix 0).e).det 26 = 1 := by
  refine ⟨⟨ok_of_check (by decide), by decide, by decide, ?_⟩, ⟨ok_of_check (by decide), by decide, asMatrix_key⟩,
    ok_of_check (by decide), by decide, by decide, ?_⟩
  · show Int.gcd (asMatrix 1 (padTo 16 (res [1]))).det 26 = 1
    rw [asMatrix_one, Matrix.det_one]
    decide
  · show Int.gcd (asMatrix 3 (padTo 16 (res [1, 0, 0, 0, 1, 0, 0, 0, 1]))).det 26 = 1
    rw [asMatrix_ident3, Matrix.det_one]
    decide
theorem witness_InvAtEvenDimension :
    ((holding 4 ident4).matrix 0).Ok State.reset.cfg ∧ ((holding 4 ident4).matrix 0).dim = 4 ∧ 4 ≤ 4 ∧ 4 % 2 = 0 ∧
    Int.gcd (asMatrix 4 ((holding 4 ident4).matrix 0).e).det 26 = 1 := by
  refine ⟨ok_of_check (by decide), by decide, by decide, by decide, ?_⟩
  show Int.gcd (asMatrix 4 (padTo 16 (res ident4))).det 26 = 1
  rw [asMatrix_ident4, Matrix.det_one]
  decide
/-- Dimensions 2, 3 and 4. -/
theorem witness_InvRoundTrip :
    (((holding 2 [3, 2, 5, 7]).matrix 0).Ok State.reset.cfg ∧ ((holding 2 [3, 2, 5, 7]).matrix 0).dim = 2 ∧ 1 ≤ 2 ∧
      Int.gcd (asMatrix 2 ((holding 2 [3, 2, 5, 7]).matrix 0).e).det 26 = 1) ∧
    (((holding 3 [1, 0, 0, 0, 1, 0, 0, 0, 1]).matrix 0).Ok State.reset.cfg ∧
      ((holding 3 [1, 0, 0, 0, 1, 0, 0, 0, 1]).matrix 0).dim = 3 ∧ 3 % 2 = 1 ∧
      Int.gcd (asMatrix 3 ((holding 3 [1, 0, 0, 0, 1, 0, 0, 0, 1]).matrix 0).e).det 26 = 1) ∧
    ((holding 4 ident4).matrix 0).Ok State.reset.cfg ∧ ((holding 4 ident4).matrix 0).dim = 4 ∧
      Int.gcd (asMatrix 4 ((holding 4 ident4).matrix 0).e).det 26 = 1 :=
  ⟨⟨ok_of_check (by decide), by decide, by decide, asMatrix_key⟩, witness_InvIsTrueInverse.2.2, witness_InvAtEvenDimension.1,
    witness_InvAtEvenDimension.2.1, witness_InvAtEvenDimension.2.2.2.2⟩

end Sys2Proof.Tests
end

section
/-! PROOFS. The registers that no command writes (ID, PARAM, CTRL, STATUS), seen through the host port, and reset
(10_state.md R19, R20, R22, R23, R27). -/

namespace Sys2Proof.Machine

/-! ### Reads of the registers that no command writes -/

/-- The registers outside the reach of every command (70_reset_and_hazards.md R172). -/
theorem Instr.mayWrite_id (i : Instr) : Instr.mayWrite i .id = false := by cases i <;> rfl
theorem Instr.mayWrite_param (i : Instr) : Instr.mayWrite i .param = false := by cases i <;> rfl
theorem Instr.mayWrite_ctrl (i : Instr) : Instr.mayWrite i .ctrl = false := by cases i <;> rfl
theorem Instr.mayWrite_status (i : Instr) : Instr.mayWrite i .status = false := by cases i <;> rfl

/-- A register that no command may write is stable, also while a command is in flight. -/
theorem State.unstable_eq_false_of_not_mayWrite {r : Reg} (h : ∀ i, Instr.mayWrite i r = false) (s : State) :
    s.unstable r = false := by
  cases hd : decodeCmd s.cmd with
  | ok i => simp [State.unstable, hd, h i]
  | error e => simp [State.unstable, hd]

/-- A read of a stable register returns the word the register holds. -/
theorem hostRead_rdata_of_stable {s : State} {a : WAddr} {r : Reg} (ha : decodeAddr s.cfg a = r)
    (h : s.unstable r = false) : (s.hostRead a).rdata = s.readReg r := by
  subst ha
  rcases hostRead_cases a s with ⟨hu, -⟩ | ⟨-, hr⟩
  · cases h.symm.trans hu
  · rw [hr, State.peek]

section Ports

variable (s : State)

theorem hostRead_id_rdata : (s.hostRead 0x000).rdata = idWord :=
  hostRead_rdata_of_stable rfl (s.unstable_eq_false_of_not_mayWrite Instr.mayWrite_id)

theorem hostRead_param_rdata : (s.hostRead 0x001).rdata = paramWord s.cfg :=
  hostRead_rdata_of_stable rfl (s.unstable_eq_false_of_not_mayWrite Instr.mayWrite_param)

theorem hostRead_ctrl_rdata : (s.hostRead 0x002).rdata = s.ctrl.word :=
  hostRead_rdata_of_stable rfl (s.unstable_eq_false_of_not_mayWrite Instr.mayWrite_ctrl)

theorem hostRead_status_rdata : (s.hostRead 0x003).rdata = s.status.word :=
  hostRead_rdata_of_stable rfl (s.unstable_eq_false_of_not_mayWrite Instr.mayWrite_status)

/-! ### Their writes -/

theorem hostWrite_id (w : Word) : s.hostWrite 0x000 w = s := rfl

theorem hostWrite_param (w : Word) : s.hostWrite 0x001 w = s := rfl

theorem hostWrite_ctrl (w : Word) : s.hostWrite 0x002 w = s.setCtrl (Ctrl.written w) := rfl

end Ports

/-! ### The words -/

theorem Ctrl.word_eq (c : Ctrl) : c.word = if c.ie then 1 else 0 := by
  rcases c with ⟨_ | _⟩ <;> rfl

/-- `PARAM` is REV 1 and NMREG 4 above the field NMAX, which holds `N_MAX` whole since `N_MAX ≤ 8`
(10_state.md R23, 00_scope.md R1). -/
theorem paramWord_toNat (c : Config) : (paramWord c).toNat = 0x140 + c.nMax := by
  have hn := c.nMax_le
  simp only [paramWord, BitVec.toNat_append, BitVec.toNat_ofNat]
  rw [← Nat.shiftLeft_add_eq_or_of_lt (by omega), Nat.mod_eq_of_lt (by omega : c.nMax < 2 ^ 4)]
  rfl

/-! ### Reset -/

/-- The state the model starts in is what a reset step leaves of it. -/
theorem resetStep_reset : State.reset.resetStep = State.reset := rfl

/-- CTRL and STATUS read 0 right after reset (10_state.md R27). -/
theorem resetStep_hostRead_ctrl_rdata (s : State) : (s.resetStep.hostRead 0x002).rdata = 0 := by
  rw [hostRead_ctrl_rdata, State.resetStep_ctrl]
  rfl

theorem resetStep_hostRead_status_rdata (s : State) : (s.resetStep.hostRead 0x003).rdata = 0 := by
  rw [hostRead_status_rdata, State.resetStep_status]
  rfl

end Sys2Proof.Machine

namespace Sys2Proof.Claims

open Sys2Proof.Machine

/-- Settles O16: no command writes ID or PARAM, so their reads are stable; the fields of PARAM are the digits of
`0x140 + N_MAX`. -/
theorem idAndParamAreHardwired : Obligations.IdAndParamAreHardwired := by
  unfold Obligations.IdAndParamAreHardwired
  intro s w
  have hn := s.cfg.nMax_le
  rw [hostRead_param_rdata, paramWord_toNat]
  refine ⟨hostRead_id_rdata s, hostWrite_id s w, ?_, ?_, ?_, ?_, hostWrite_param s w⟩ <;> omega

/-- Settles O17: CTRL is stable, so a read returns its word; with IE 1 the conjunction that drives `irq` is DONE. -/
theorem controlRegister : Obligations.ControlRegister := by
  unfold Obligations.ControlRegister
  refine ⟨fun s w => ⟨?_, hostWrite_ctrl s w, fun hie => ?_⟩, rfl⟩
  · rw [hostRead_ctrl_rdata, Ctrl.word_eq]
  · rw [State.irq, hie, Bool.and_true]

/-- Settles O26: the start state is itself the result of a reset step, so both cases are one reset step, whose fields
are read off. -/
theorem resetSetsEveryPieceOfState : Obligations.ResetSetsEveryPieceOfState := by
  unfold Obligations.ResetSetsEveryPieceOfState
  intro s t ht
  have hcfg : t = s.resetStep → t.cfg = s.cfg := fun h => by rw [h, State.resetStep_cfg]
  obtain ⟨u, rfl⟩ : ∃ u : State, t = u.resetStep := by
    rcases ht with h | h
    · exact ⟨s, h⟩
    · exact ⟨State.reset, h.trans resetStep_reset.symm⟩
  have hmatrix (k : MNum) : (u.resetStep.matrix k).dim = 0 ∧
      (u.resetStep.matrix k).e = List.replicate (u.resetStep.cfg.nMax * u.resetStep.cfg.nMax) 0 := by
    rw [State.matrix_resetStep]
    exact ⟨rfl, rfl⟩
  have hparam : (u.resetStep.hostRead 0x001).rdata.toNat = 0x140 + u.resetStep.cfg.nMax := by
    rw [hostRead_param_rdata, paramWord_toNat]
  exact ⟨hmatrix, u.resetStep_stage, u.resetStep_operand, u.resetStep_scalarOut, u.resetStep_vecOut, rfl, rfl, rfl, rfl,
    rfl, resetStep_hostRead_ctrl_rdata u, resetStep_hostRead_status_rdata u, u.resetStep_cmd, rfl,
    hostRead_id_rdata _, hparam, hcfg⟩

end Sys2Proof.Claims
end

section
/-! PROOFS. The register window: which addresses each destination of a command lies at, reads without side effect, and
writes that the window ignores or discards (20_memory.md R32 to R35; 70_reset_and_hazards.md R172). -/

namespace Sys2Proof.Machine

/-! ### The addresses of the registers that a command may write (20_memory.md R32) -/

section Addresses

variable {c : Config} {a : WAddr}

theorem decodeAddr_eq_mdim_iff {k : MNum} : decodeAddr c a = .mdim k ↔ a.toNat = 0x008 + k.val := by
  have hk := k.isLt
  rw [decodeAddr]
  rcases decodeIndex_cases c a.toNat with h | h | h | h | h | h | h | h | h | h | h | h <;>
    simp [h.2, Fin.ext_iff] <;> omega

theorem exists_decodeAddr_eq_vecOut_iff :
    (∃ j, decodeAddr c a = .vecOut j) ↔ 0x080 ≤ a.toNat ∧ a.toNat < 0x080 + c.nMax := by
  have hn := c.nMax_le
  rw [decodeAddr]
  rcases decodeIndex_cases c a.toNat with h | h | h | h | h | h | h | h | h | h | h | h <;> simp [h.2] <;> omega

theorem exists_decodeAddr_eq_melem_iff {k : MNum} :
    (∃ i, decodeAddr c a = .melem k i) ↔
      0x100 + 64 * k.val ≤ a.toNat ∧ a.toNat < 0x100 + 64 * k.val + c.slots := by
  have hs := slots_le_64 c
  have hk := k.isLt
  rw [decodeAddr]
  rcases decodeIndex_cases c a.toNat with h | h | h | h | h | h | h | h | h | h | h | h <;>
    simp [h.2, Fin.ext_iff] <;> omega

/-- The staging window holds staging words, and reserved addresses above the last implemented one. -/
theorem decodeAddr_cases_of_inStagingWindow (h : inStagingWindow a = true) :
    (∃ i, decodeAddr c a = .stage i) ∨ decodeAddr c a = .reserved := by
  have hw : 0x040 ≤ a.toNat ∧ a.toNat ≤ 0x07F := of_decide_eq_true h
  rw [decodeAddr]
  rcases decodeIndex_cases c a.toNat with h | h | h | h | h | h | h | h | h | h | h | h <;> simp [h.2] <;> omega

end Addresses

/-! ### The destinations of a command (70_reset_and_hazards.md R172) -/

section Destinations

variable {r : Reg}

theorem mayWrite_build_iff {md : MNum} {len : Nat} :
    Instr.mayWrite (.build md len) r = true ↔ r = .mdim md ∨ ∃ i, r = .melem md i := by
  cases r <;> simp [Instr.mayWrite]

theorem mayWrite_inv_iff {md ms : MNum} :
    Instr.mayWrite (.inv md ms) r = true ↔ r = .mdim md ∨ ∃ i, r = .melem md i := by
  cases r <;> simp [Instr.mayWrite]

theorem mayWrite_col_iff {ms : MNum} {j : Nat} :
    Instr.mayWrite (.col ms j) r = true ↔ ∃ i, r = .vecOut i := by
  cases r <;> simp [Instr.mayWrite]

/-- NORM, RINV, DET and DIM have the one destination `SCALAR_OUT`. -/
theorem mayWrite_scalar_iff {i : Instr} (hi : i = .norm ∨ i = .rinv ∨ (∃ ms, i = .det ms) ∨ ∃ ms, i = .dim ms) :
    Instr.mayWrite i r = true ↔ r = .scalarOut := by
  rcases hi with rfl | rfl | ⟨ms, rfl⟩ | ⟨ms, rfl⟩ <;> cases r <;> simp [Instr.mayWrite]

theorem Instr.mayWrite_reserved (i : Instr) : Instr.mayWrite i .reserved = false := by cases i <;> rfl

end Destinations

/-! ### Reads -/

section Reads

variable {s : State} {a : WAddr}

/-- A read of a stable register changes the port's read data only. -/
theorem hostRead_of_stable (h : s.unstable (decodeAddr s.cfg a) = false) :
    s.hostRead a = { s with rdata := s.peek a } := by
  rcases hostRead_cases a s with ⟨hu, -⟩ | ⟨-, hr⟩
  · cases h.symm.trans hu
  · exact hr

theorem hostRead_reserved (h : decodeAddr s.cfg a = .reserved) : s.hostRead a = { s with rdata := 0 } := by
  have hstable : s.unstable (decodeAddr s.cfg a) = false := by
    rw [h]
    exact s.unstable_eq_false_of_not_mayWrite Instr.mayWrite_reserved
  rw [hostRead_of_stable hstable, State.peek, h, State.readReg]

/-- The state `s` but for what a read may change, which is the port's own and not MD26's (20_memory.md R35). -/
def State.withPort (s : State) (rdata : Word) (draws : Nat) : State := { s with rdata := rdata, draws := draws }

variable (s a)

theorem hostRead_eq_withPort : s.hostRead a = s.withPort (s.hostRead a).rdata (s.hostRead a).draws := by
  rcases hostRead_cases a s with ⟨-, h⟩ | ⟨-, h⟩ <;> rw [h] <;> rfl

/-- No sequence of reads leaves more than port data behind. -/
theorem exists_foldl_hostRead_eq_withPort (l : List WAddr) :
    ∃ x d, l.foldl (fun t b => t.hostRead b) s = s.withPort x d := by
  induction l generalizing s with
  | nil => exact ⟨s.rdata, s.draws, rfl⟩
  | cons b l ih =>
    obtain ⟨x, d, h⟩ := ih (s.hostRead b)
    refine ⟨x, d, ?_⟩
    rw [List.foldl_cons, h, hostRead_eq_withPort s b]
    rfl

variable {s a}

/-- What a stable read returns does not depend on the port's own fields. -/
theorem hostRead_withPort_rdata (h : s.unstable (decodeAddr s.cfg a) = false) (x : Word) (d : Nat) :
    ((s.withPort x d).hostRead a).rdata = (s.hostRead a).rdata := by
  have hport : ((s.withPort x d).hostRead a).rdata = s.readReg (decodeAddr s.cfg a) :=
    hostRead_rdata_of_stable (s := s.withPort x d) rfl h
  rw [hport, hostRead_rdata_of_stable rfl h]

end Reads

/-! ### Writes -/

section Writes

variable {s : State} {a : WAddr} (w : Word)

theorem hostWrite_reserved (h : decodeAddr s.cfg a = .reserved) :
    s.hostWrite a w = if s.status.busy && inStagingWindow a then s.overrun else s := by
  rw [State.hostWrite, h]

/-- While BUSY = 1 every write into the staging window is an overrun, implemented or not (20_memory.md R33). -/
theorem hostWrite_stagingWindow_of_busy (hb : s.status.busy = true) (hw : inStagingWindow a = true) :
    s.hostWrite a w = s.overrun := by
  rcases decodeAddr_cases_of_inStagingWindow (c := s.cfg) hw with ⟨i, hd⟩ | hd
  · simp only [State.hostWrite, hd, hb, if_true]
  · rw [hostWrite_reserved w hd, hb, hw]
    rfl

end Writes

end Sys2Proof.Machine

namespace Sys2Proof.Claims

open Sys2Proof.Machine

/-- What `destination` says of the addresses is what `Instr.mayWrite` says of the registers at them. -/
theorem destination_iff_mayWrite {s : State} {a : WAddr} {i : Instr} (hi : decodeCmd s.cmd = .ok i) :
    destination s a.toNat ↔ Instr.mayWrite i (decodeAddr s.cfg a) = true := by
  have hscalar : a.toNat = 0x006 ↔ decodeAddr s.cfg a = .scalarOut := by
    rw [decodeAddr_scalarOut, ← BitVec.toNat_inj]
    rfl
  cases i with
  | nop => simp [destination, hi, Instr.mayWrite]
  | norm => simp only [destination, hi, hscalar, mayWrite_scalar_iff (.inl rfl)]
  | rinv => simp only [destination, hi, hscalar, mayWrite_scalar_iff (.inr (.inl rfl))]
  | det ms => simp only [destination, hi, hscalar, mayWrite_scalar_iff (.inr (.inr (.inl ⟨ms, rfl⟩)))]
  | dim ms => simp only [destination, hi, hscalar, mayWrite_scalar_iff (.inr (.inr (.inr ⟨ms, rfl⟩)))]
  | build md len =>
    simp only [destination, hi, mayWrite_build_iff, decodeAddr_eq_mdim_iff, exists_decodeAddr_eq_melem_iff,
      Config.slots]
  | inv md ms =>
    simp only [destination, hi, mayWrite_inv_iff, decodeAddr_eq_mdim_iff, exists_decodeAddr_eq_melem_iff,
      Config.slots]
  | col ms j => simp only [destination, hi, mayWrite_col_iff, exists_decodeAddr_eq_vecOut_iff]

/-- A read is free exactly when BUSY = 1 and the address is a destination of the command in flight. -/
theorem unstable_iff_destination {s : State} {a : WAddr} :
    s.unstable (decodeAddr s.cfg a) = true ↔ s.status.busy = true ∧ destination s a.toNat := by
  cases hd : decodeCmd s.cmd with
  | ok i => simp only [State.unstable, hd, Bool.and_eq_true, destination_iff_mayWrite hd]
  | error e => simp [State.unstable, destination, hd]

/-- Settles O19: no command writes a reserved address, so its read is the stable 0; and the staging window decodes to
staging words and reserved addresses only, whose writes are overruns while BUSY = 1. -/
theorem reservedAddresses : Obligations.ReservedAddresses := by
  unfold Obligations.ReservedAddresses
  intro s a w
  refine ⟨fun hr => ⟨hostRead_reserved hr, fun hout => ?_⟩, fun hb hlo hhi => ?_⟩
  · have hno : ¬(s.status.busy && inStagingWindow a) = true := by
      rwa [Bool.and_eq_true, inStagingWindow, decide_eq_true_iff]
    rw [hostWrite_reserved w hr, if_neg hno]
  · exact hostWrite_stagingWindow_of_busy w hb (decide_eq_true ⟨hlo, hhi⟩)

/-- Settles O23: reads change the port's own fields only, and a register that is no destination of the command in flight
is stable, so its word depends on none of them. -/
theorem readsHaveNoSideEffect : Obligations.ReadsHaveNoSideEffect := by
  unfold Obligations.ReadsHaveNoSideEffect
  refine ⟨hostRead_eq_withPort, fun s a between hdest => ?_⟩
  have hstable : s.unstable (decodeAddr s.cfg a) = false :=
    Bool.eq_false_iff.mpr fun hu => hdest (unstable_iff_destination.mp hu)
  obtain ⟨x, d, hreads⟩ : ∃ x d, between.foldl (fun t b => t.hostRead b) (s.hostRead a) = s.withPort x d :=
    exists_foldl_hostRead_eq_withPort s (a :: between)
  rw [hreads, hostRead_withPort_rdata hstable]

/-- Settles O20: each read-only register has its own arm in the write, which leaves the state. -/
theorem readOnlyWritesIgnored : Obligations.ReadOnlyWritesIgnored := by
  unfold Obligations.ReadOnlyWritesIgnored
  intro s a w h
  rcases h with h | h | h | ⟨k, h⟩ | ⟨j, h⟩ | ⟨k, i, h⟩ <;> rw [State.hostWrite, h]

end Sys2Proof.Claims
end

section
/-! PROOFS. Decoding against the opcode table: a word as its five fields, what a mask leaves of each field, and the words
that decode to each command (30_encoding.md R50 to R54). -/

namespace Sys2Proof

/-! ### A word is its five fields -/

theorem eq_iff_fields {v w : Word} :
    w = v ↔ fieldRSV w = fieldRSV v ∧ fieldOP w = fieldOP v ∧ fieldMD w = fieldMD v ∧ fieldMS w = fieldMS v ∧
      fieldIMM w = fieldIMM v := by
  simp only [← BitVec.toNat_inj, Fin.ext_iff, fieldRSV_toNat, fieldOP_toNat, fieldMD_val, fieldMS_val, fieldIMM_eq]
  omega

section Masks

variable (w m : Word)

theorem fieldRSV_and : fieldRSV (w &&& m) = fieldRSV w &&& fieldRSV m := BitVec.extractLsb'_and

theorem fieldOP_and : fieldOP (w &&& m) = fieldOP w &&& fieldOP m := BitVec.extractLsb'_and

theorem fieldMD_and : fieldMD (w &&& m) = fieldMD w &&& fieldMD m := by
  simp only [fieldMD, BitVec.extractLsb'_and]
  exact Fin.ext (Nat.mod_eq_of_lt (w.extractLsb' 4 2 &&& m.extractLsb' 4 2).isLt).symm

theorem fieldMS_and : fieldMS (w &&& m) = fieldMS w &&& fieldMS m := by
  simp only [fieldMS, BitVec.extractLsb'_and]
  exact Fin.ext (Nat.mod_eq_of_lt (w.extractLsb' 6 2 &&& m.extractLsb' 6 2).isLt).symm

theorem fieldIMM_and : fieldIMM (w &&& m) = fieldIMM w &&& fieldIMM m := by
  rw [fieldIMM, BitVec.extractLsb'_and, BitVec.toNat_and, fieldIMM, fieldIMM]

end Masks

/-! ### The words that decode -/

theorem requireZero_eq_ok_iff {zero : Bool} {i j : Instr} : requireZero zero i = .ok j ↔ zero = true ∧ i = j := by
  cases zero <;> simp [requireZero]

/-- The legal words, opcode by opcode: `RSV` and every field marked "0" are zero (30_encoding.md R54). -/
theorem decodeCmd_eq_ok_iff {w : Word} {i : Instr} :
    decodeCmd w = .ok i ↔ fieldRSV w = 0 ∧
      ((fieldOP w = 0 ∧ fieldMD w = 0 ∧ fieldMS w = 0 ∧ fieldIMM w = 0 ∧ .nop = i) ∨
       (fieldOP w = 1 ∧ fieldMD w = 0 ∧ fieldMS w = 0 ∧ fieldIMM w = 0 ∧ .norm = i) ∨
       (fieldOP w = 2 ∧ fieldMD w = 0 ∧ fieldMS w = 0 ∧ fieldIMM w = 0 ∧ .rinv = i) ∨
       (fieldOP w = 3 ∧ fieldMS w = 0 ∧ .build (fieldMD w) (fieldIMM w) = i) ∨
       (fieldOP w = 4 ∧ fieldMD w = 0 ∧ fieldIMM w = 0 ∧ .det (fieldMS w) = i) ∨
       (fieldOP w = 5 ∧ fieldIMM w = 0 ∧ .inv (fieldMD w) (fieldMS w) = i) ∨
       (fieldOP w = 6 ∧ fieldMD w = 0 ∧ .col (fieldMS w) (fieldIMM w) = i) ∨
       (fieldOP w = 7 ∧ fieldMD w = 0 ∧ fieldIMM w = 0 ∧ .dim (fieldMS w) = i)) := by
  by_cases hrsv : fieldRSV w = 0
  · rw [decodeCmd, if_neg (not_not_intro hrsv)]
    simp only [hrsv, ← BitVec.toNat_inj (x := fieldOP w)]
    split
    case h_9 => simp_all
    all_goals simp [*, requireZero_eq_ok_iff, and_assoc]
  · rw [decodeCmd, if_pos hrsv]
    exact iff_of_false nofun fun h => hrsv h.1

/-! ### The masks of the opcode table (30_encoding.md R53) -/

/-- The mask of a row: `RSV`, `OP` and those of `MD`, `MS` and `IMM` that the row marks "0". -/
def tableMask (md ms imm : Bool) : Word :=
  0xFFFF#16 ++ (bif imm then 0xFF#8 else 0#8) ++ (bif ms then 3#2 else 0#2) ++ (bif md then 3#2 else 0#2) ++ 0xF#4

theorem fields_tableMask : ∀ md ms imm : Bool,
    fieldRSV (tableMask md ms imm) = BitVec.allOnes 16 ∧ fieldOP (tableMask md ms imm) = BitVec.allOnes 4 ∧
    fieldMD (tableMask md ms imm) = (bif md then 3 else 0) ∧ fieldMS (tableMask md ms imm) = (bif ms then 3 else 0) ∧
    fieldIMM (tableMask md ms imm) = (bif imm then 255 else 0) := by
  decide

/-- A match word is an opcode alone. -/
theorem fields_packCmd_op : ∀ op : BitVec 4,
    fieldRSV (packCmd op 0 0 0) = 0 ∧ fieldOP (packCmd op 0 0 0) = op ∧ fieldMD (packCmd op 0 0 0) = 0 ∧
    fieldMS (packCmd op 0 0 0) = 0 ∧ fieldIMM (packCmd op 0 0 0) = 0 := by
  decide

/-- A register field under its part of a mask, all ones or all zeros. -/
theorem mnum_and_eq_zero_iff : ∀ (k : MNum) (b : Bool), k &&& (bif b then 3 else 0) = 0 ↔ (b = true → k = 0) := by
  decide

theorem fieldIMM_and_eq_zero_iff (w : Word) (b : Bool) :
    fieldIMM w &&& (bif b then 255 else 0) = 0 ↔ (b = true → fieldIMM w = 0) := by
  have hones : fieldIMM w &&& 255 = fieldIMM w := Nat.and_two_pow_sub_one_of_lt_two_pow (n := 8) (BitVec.isLt _)
  cases b <;> simp [hones]

theorem and_tableMask_eq_iff {w : Word} {op : BitVec 4} {md ms imm : Bool} :
    w &&& tableMask md ms imm = packCmd op 0 0 0 ↔
      fieldRSV w = 0 ∧ fieldOP w = op ∧ (md = true → fieldMD w = 0) ∧ (ms = true → fieldMS w = 0) ∧
        (imm = true → fieldIMM w = 0) := by
  obtain ⟨hrsv, hop, hmd, hms, himm⟩ := fields_tableMask md ms imm
  obtain ⟨hrsv', hop', hmd', hms', himm'⟩ := fields_packCmd_op op
  rw [eq_iff_fields, fieldRSV_and, fieldOP_and, fieldMD_and, fieldMS_and, fieldIMM_and, hrsv, hop, hmd, hms, himm,
    hrsv', hop', hmd', hms', himm', BitVec.and_allOnes, BitVec.and_allOnes, mnum_and_eq_zero_iff, mnum_and_eq_zero_iff,
    fieldIMM_and_eq_zero_iff]

end Sys2Proof

namespace Sys2Proof.Claims

/-! ### The opcode table -/

theorem mdOf_eq_fieldMD : mdOf = fieldMD := funext fun w => Fin.ext (fieldMD_val w).symm

theorem msOf_eq_fieldMS : msOf = fieldMS := funext fun w => Fin.ext (fieldMS_val w).symm

theorem immOf_eq_fieldIMM : immOf = fieldIMM := funext fun w => (fieldIMM_eq w).symm

/-- The table by opcodes, "0" marks and fields. -/
theorem opcodeRows_eq : opcodeRows =
    [(packCmd 0 0 0 0, tableMask true true true, fun _ => .nop),
     (packCmd 1 0 0 0, tableMask true true true, fun _ => .norm),
     (packCmd 2 0 0 0, tableMask true true true, fun _ => .rinv),
     (packCmd 3 0 0 0, tableMask false true false, fun w => .build (fieldMD w) (fieldIMM w)),
     (packCmd 4 0 0 0, tableMask true false true, fun w => .det (fieldMS w)),
     (packCmd 5 0 0 0, tableMask false false true, fun w => .inv (fieldMD w) (fieldMS w)),
     (packCmd 6 0 0 0, tableMask true false false, fun w => .col (fieldMS w) (fieldIMM w)),
     (packCmd 7 0 0 0, tableMask true false true, fun w => .dim (fieldMS w))] := by
  rw [← mdOf_eq_fieldMD, ← msOf_eq_fieldMS, ← immOf_eq_fieldIMM]
  rfl

/-- A row's mask tests exactly the fields that the decoder requires to be zero, and its operands are those fields. -/
theorem decodeCmd_eq_ok_iff_exists_row {w : Word} {i : Instr} :
    decodeCmd w = .ok i ↔ ∃ row ∈ opcodeRows, w &&& row.2.1 = row.1 ∧ row.2.2 w = i := by
  simp [opcodeRows_eq, and_tableMask_eq_iff, decodeCmd_eq_ok_iff, and_assoc, and_or_left]

/-- Every mask covers `OP`, and row `j` is the row of opcode `j`. -/
theorem fieldOP_opcodeRows : ∀ j : Fin opcodeRows.length,
    fieldOP opcodeRows[j].2.1 = BitVec.allOnes 4 ∧ (fieldOP opcodeRows[j].1).toNat = j := by
  decide

theorem fieldOP_of_selects {w : Word} {j : Fin opcodeRows.length}
    (h : w &&& opcodeRows[j].2.1 = opcodeRows[j].1) : (fieldOP w).toNat = j := by
  obtain ⟨hmask, hmatch⟩ := fieldOP_opcodeRows j
  rw [← hmatch, ← h, fieldOP_and, hmask, BitVec.and_allOnes]

/-- Settles O4: the rows of the table are the arms of the decoder, and the row that a word selects is the one its `OP`
numbers. -/
theorem opcodeTableSelectsByMask : Obligations.OpcodeTableSelectsByMask := by
  unfold Obligations.OpcodeTableSelectsByMask
  refine ⟨fun w i => decodeCmd_eq_ok_iff_exists_row, fun w j k hj hk => Fin.ext ?_⟩
  rw [← fieldOP_of_selects hj, ← fieldOP_of_selects hk]

end Sys2Proof.Claims
end

section
/-! PROOFS. Arithmetic mod 26: the normalizer, the inverse lookup, and the commands NORM and RINV
(40_modular_arithmetic.md R70 to R74). -/

namespace Sys2Proof

section OperandFree

variable {w : Word} {i : Instr}

/-- The commands without an operand are encoded by their opcode alone. -/
theorem decodeCmd_eq_ok_iff_of_noOperand (hi : i = .nop ∨ i = .norm ∨ i = .rinv) :
    decodeCmd w = .ok i ↔ w = encode i := by
  rw [decodeCmd_eq_ok_iff, eq_iff_fields]
  rcases hi with rfl | rfl | rfl <;> simp [encode, fields_packCmd_op]

/-- A legal word with an opcode below 3 has no other bit set. -/
theorem eq_packCmd_of_op_lt_three (h : decodeCmd w = .ok i) (hop : (fieldOP w).toNat < 3) :
    w = packCmd (fieldOP w) 0 0 0 := by
  obtain ⟨hrsv, hcases⟩ := decodeCmd_eq_ok_iff.mp h
  obtain ⟨hrsv', hop', hmd', hms', himm'⟩ := fields_packCmd_op (fieldOP w)
  rw [eq_iff_fields, hrsv', hop', hmd', hms', himm']
  rcases hcases with ⟨-, hmd, hms, himm, -⟩ | ⟨-, hmd, hms, himm, -⟩ | ⟨-, hmd, hms, himm, -⟩ | h | h | h | h | h
  · exact ⟨hrsv, rfl, hmd, hms, himm⟩
  · exact ⟨hrsv, rfl, hmd, hms, himm⟩
  · exact ⟨hrsv, rfl, hmd, hms, himm⟩
  all_goals
    rw [h.1] at hop
    exact absurd hop (by decide)

end OperandFree

end Sys2Proof

namespace Sys2Proof.Machine

/-! ### The normalizer (40_modular_arithmetic.md R70) -/

/-- The source's remainder form: truncate, shift by 26, truncate again. -/
theorem tmod26_add_tmod26 (n : ℤ) : (n.tmod 26 + 26).tmod 26 = n % 26 := by
  have hshift : 0 ≤ n.tmod 26 + 26 := by
    have := Int.lt_tmod_of_pos n (by decide : (0 : ℤ) < 26)
    omega
  rw [Int.tmod_eq_emod_of_nonneg hshift, Int.add_emod_right, Int.tmod_eq_emod, Int.emod_sub_emod]
  split <;> simp

/-- The source's form for a negative integer, by the remainder of its absolute value. -/
theorem emod26_of_neg {n : ℤ} (h : n < 0) : n % 26 = if 26 - |n| % 26 = 26 then 0 else 26 - |n| % 26 := by
  rw [abs_of_neg h]
  split <;> omega

/-! ### The inverse lookup (40_modular_arithmetic.md R71, R72) -/

section InverseLookup

variable {r : Residue}

/-- The entries of the table at the residues coprime to 26 are inverses. -/
theorem mul_invTab_mod (hr : r.toNat < 26) (hc : Nat.gcd r.toNat 26 = 1) :
    r.toNat * (invTab r).toNat % 26 = 1 := by
  revert r
  decide

/-- All other entries are the sentinel. -/
theorem invTab_eq_zero (hc : Nat.gcd r.toNat 26 ≠ 1) : invTab r = 0 := by
  revert r
  decide

theorem invTab_ne_zero_iff (hr : r.toNat < 26) : invTab r ≠ 0 ↔ Nat.gcd r.toNat 26 = 1 := by
  refine ⟨fun h => not_imp_comm.mp invTab_eq_zero h, fun hc h0 => ?_⟩
  have hmul := mul_invTab_mod hr hc
  rw [h0] at hmul
  exact absurd hmul (by simp)

/-- An inverse below 26 is the entry of the table: only a coprime residue has one, and it has only one. -/
theorem invTab_toNat_eq {t : Nat} (hr : r.toNat < 26) (ht : t < 26) (h : r.toNat * t % 26 = 1) :
    (invTab r).toNat = t := by
  have hc : Nat.Coprime r.toNat 26 := Nat.coprime_of_mul_modEq_one t h
  have heq : r.toNat * (invTab r).toNat ≡ r.toNat * t [MOD 26] := (mul_invTab_mod hr hc).trans h.symm
  exact (heq.cancel_left_of_coprime hc.symm).eq_of_lt_of_lt (invTab_lt r) ht

theorem mul_mod_eq_one_iff {t : Nat} (hr : r.toNat < 26) (h1 : 1 ≤ t) (ht : t < 26) :
    r.toNat * t % 26 = 1 ↔ (invTab r).toNat = t := by
  refine ⟨invTab_toNat_eq hr ht, fun h => ?_⟩
  subst h
  have hne : invTab r ≠ 0 := fun h0 => by simp [h0] at h1
  exact mul_invTab_mod hr ((invTab_ne_zero_iff hr).mp hne)

/-- A residue is the inverse of its inverse. -/
theorem invTab_invTab (hr : r.toNat < 26) (h : invTab r ≠ 0) : invTab (invTab r) = r := by
  have hmul := mul_invTab_mod hr ((invTab_ne_zero_iff hr).mp h)
  rw [Nat.mul_comm] at hmul
  exact BitVec.eq_of_toNat_eq (invTab_toNat_eq (invTab_lt r) hr hmul)

/-- The lookup after normalizing, for any integer: its inverse mod 26, or the sentinel 0. -/
theorem invTab_normalize26_spec (x : ℤ) :
    if Int.gcd x 26 = 1 then x * ((invTab (normalize26 x)).toNat : ℤ) % 26 = 1
    else (invTab (normalize26 x)).toNat = 0 := by
  have hval : ((normalize26 x).toNat : ℤ) = x % 26 := val_normalize26 x
  have hgcd : Nat.gcd (normalize26 x).toNat 26 = Int.gcd x 26 := by
    rw [← Int.gcd_emod x 26, ← hval]
    rfl
  split
  next h =>
    rw [← (Int.mod_modEq x 26).mul_right, ← hval]
    exact_mod_cast mul_invTab_mod (normalize26_lt x) (hgcd.trans h)
  next h =>
    rw [invTab_eq_zero (hgcd ▸ h)]
    rfl

end InverseLookup

/-! ### The commands NORM and RINV (40_modular_arithmetic.md R73, R74) -/

theorem zext32_eq_ofNat (r : Residue) : zext32 r = BitVec.ofNat 32 r.toNat := (BitVec.ofNat_toNat 32 r).symm

theorem exec_norm (s : State) :
    exec .norm s = succeed (s.setScalarOut (BitVec.ofNat 32 (s.operand.toInt % 26).toNat)) := by
  rw [← normalize26_toNat, ← zext32_eq_ofNat]
  rfl

theorem exec_rinv (s : State) :
    exec .rinv s =
      succeed (s.setScalarOut (BitVec.ofNat 32 (invTab (normalize26 s.operand.toInt)).toNat)) := by
  rw [← zext32_eq_ofNat]
  rfl

end Sys2Proof.Machine

namespace Sys2Proof.Claims

open Sys2Proof.Machine

/-- Words are illegal where every legal word with the opcode is not `bad`. -/
theorem illegalWhere_of_ok {op : Nat} {bad : Word → Prop}
    (h : ∀ w i, w.toNat % 16 = op → decodeCmd w = .ok i → ¬ bad w) : illegalWhere op bad := by
  intro w hop hbad
  cases hd : decodeCmd w with
  | ok i => exact absurd hbad (h w i hop hd)
  | error r => exact ⟨r, rfl⟩

/-- With an opcode below 3, every word with another bit set is illegal. -/
theorem illegalWhere_ne_packCmd {op : BitVec 4} (hop : op.toNat < 3) :
    illegalWhere op.toNat (fun w => w ≠ packCmd op 0 0 0) := by
  refine illegalWhere_of_ok fun w i hw hi => ?_
  obtain rfl : fieldOP w = op := BitVec.eq_of_toNat_eq ((fieldOP_toNat w).trans hw)
  exact not_not_intro (eq_packCmd_of_op_lt_three hi hop)

/-- A commit that succeeds and leaves a word in `SCALAR_OUT` changes nothing else but STATUS. -/
theorem succeed_setScalarOut (s : State) (w : Word) :
    succeed (s.setScalarOut w) = .next { s with scalarOut := w, status := endedStatus s .ok } := rfl

/-- Settles O51: the entry at a residue coprime to 26 is its only inverse below 26, and the others are 0. -/
theorem inverseLookup : Obligations.InverseLookup := by
  unfold Obligations.InverseLookup
  intro r hr
  refine ⟨fun _ => mul_mod_eq_one_iff hr, fun hnone => ?_, invTab_ne_zero_iff hr, invTab_invTab hr⟩
  by_contra h
  have hpos : 1 ≤ (invTab r).toNat := Nat.one_le_iff_ne_zero.mpr fun h0 => h (BitVec.eq_of_toNat_eq h0)
  exact hnone _ hpos (invTab_lt r) ((mul_mod_eq_one_iff hr hpos (invTab_lt r)).mpr rfl)

/-- Settles O50: the value of a normal form is the remainder `n % 26`, which each of the source's two forms computes. -/
theorem normalizeIsEuclidean : Obligations.NormalizeIsEuclidean := by
  unfold Obligations.NormalizeIsEuclidean
  intro n
  rw [val_normalize26]
  exact ⟨rfl, emod26_nonneg n, emod26_lt n, (tmod26_add_tmod26 n).symm, emod26_of_neg⟩

/-- Settles O38: NORM succeeds with the normalized operand, and its encoding is its opcode alone. -/
theorem normResult : Obligations.NormResult := by
  unfold Obligations.NormResult
  refine ⟨fun s => ?_, fun w => decodeCmd_eq_ok_iff_of_noOperand (.inr (.inl rfl)),
    illegalWhere_ne_packCmd (op := 1) (by decide)⟩
  rw [exec_norm, succeed_setScalarOut]

/-- Settles O39: the word that RINV leaves is the table's entry for the normalized operand. -/
theorem rinvResult : Obligations.RinvResult := by
  unfold Obligations.RinvResult
  refine ⟨fun s => ⟨(invTab (normalize26 s.operand.toInt)).toNat, invTab_lt _, invTab_normalize26_spec _, ?_⟩,
    fun w => decodeCmd_eq_ok_iff_of_noOperand (.inr (.inr rfl)), illegalWhere_ne_packCmd (op := 2) (by decide)⟩
  rw [exec_rinv, succeed_setScalarOut]

end Sys2Proof.Claims
end

section
/-! PROOFS. The command BUILD: its result and failures, the word of a command as an `|||` of shifted fields, and the
words with its opcode that are illegal (41_matrix_construction.md R80, R81; 30_encoding.md R50, R54). -/

namespace Sys2Proof

/-! ### The word of a command -/

/-- The fields of packed fields; an immediate is cut to its field. -/
theorem fields_packCmd (op : BitVec 4) (md ms : MNum) (imm : Nat) :
    fieldRSV (packCmd op md ms imm) = 0 ∧ fieldOP (packCmd op md ms imm) = op ∧ fieldMD (packCmd op md ms imm) = md ∧
    fieldMS (packCmd op md ms imm) = ms ∧ fieldIMM (packCmd op md ms imm) = imm % 256 := by
  have hcut : packCmd op md ms imm = packCmd op md ms (imm % 256) := by
    have hbyte : BitVec.ofNat 8 (imm % 256) = BitVec.ofNat 8 imm := BitVec.eq_of_toNat_eq (by simp)
    rw [packCmd, packCmd, hbyte]
  have hop := op.isLt
  have hmd := md.isLt
  have hms := ms.isLt
  simp only [← BitVec.toNat_inj, BitVec.ofNat_eq_ofNat, BitVec.toNat_ofNat, Fin.ext_iff, fieldRSV_toNat, fieldOP_toNat,
    fieldMD_val, fieldMS_val, fieldIMM_eq]
  rw [hcut, packCmd_toNat op md ms (by omega)]
  omega

/-- A word decodes to a command exactly when the command is well formed and the word is its encoding. -/
theorem decodeCmd_eq_ok_iff_eq_encode {w : Word} {i : Instr} :
    decodeCmd w = .ok i ↔ i.wf = true ∧ w = encode i := by
  have himm (n : Nat) : fieldIMM w = n ↔ n ≤ 255 ∧ fieldIMM w = n % 256 := by
    have hlt : fieldIMM w < 256 := BitVec.isLt _
    omega
  rw [decodeCmd_eq_ok_iff, eq_iff_fields]
  cases i with
  | nop | norm | rinv => simp [encode, fields_packCmd, Instr.wf]
  | build _ imm | col _ imm => simp [encode, fields_packCmd, Instr.wf, immOk, himm imm]; tauto
  | det | inv | dim => simp [encode, fields_packCmd, Instr.wf]; tauto

/-- The packed fields overlap in no bit, so the word is also the `|||` of the fields, each shifted to its place. -/
theorem packCmd_eq_or (op : BitVec 4) (md ms : MNum) {imm : Nat} (h : imm ≤ 255) :
    packCmd op md ms imm =
      BitVec.ofNat 32 op.toNat ||| BitVec.ofNat 32 md.val <<< 4 ||| BitVec.ofNat 32 ms.val <<< 6 |||
        BitVec.ofNat 32 imm <<< 8 := by
  have hop := op.isLt
  have hmd := md.isLt
  have hms := ms.isLt
  apply BitVec.eq_of_toNat_eq
  simp only [packCmd, BitVec.toNat_append, BitVec.toNat_or, BitVec.toNat_shiftLeft, BitVec.toNat_ofNat,
    BitVec.toNat_ofFin, Nat.shiftLeft_or_distrib, ← Nat.shiftLeft_add, Nat.zero_mod, Nat.zero_shiftLeft, Nat.zero_or]
  simp (disch := omega) only [Nat.shiftLeft_eq, Nat.mod_eq_of_lt, Nat.reduceAdd]
  ac_rfl

end Sys2Proof

namespace Sys2Proof.Machine

/-! ### FromFlat (41_matrix_construction.md R80) -/

section FromFlat

variable {c : Config} {vals : List Int} {n : Nat}

theorem fromFlat_of_not_square (h : ∀ n, n * n ≠ vals.length) : fromFlat c vals = .error .shape := by
  rw [fromFlat, exactSqrt_eq_none.mpr h]

theorem fromFlat_of_bad_dimension (hlen : n * n = vals.length) (hn : n = 0 ∨ c.nMax < n) :
    fromFlat c vals = .error .dimension := by
  simp only [fromFlat, exactSqrt_eq_some.mpr hlen, if_pos hn]

theorem fromFlat_of_square (hlen : n * n = vals.length) (hpos : 1 ≤ n) (hle : n ≤ c.nMax) :
    fromFlat c vals = .ok { dim := n, e := padTo c.slots (vals.map normalize26) } := by
  have hn : ¬(n = 0 ∨ c.nMax < n) := by omega
  simp only [fromFlat, exactSqrt_eq_some.mpr hlen, if_neg hn]

end FromFlat

/-! ### The command BUILD (41_matrix_construction.md R81) -/

section Build

variable {s : State} {md : MNum} {len n : Nat}

theorem exec_build_of_not_square (h : ∀ n, n * n ≠ len) : exec (.build md len) s = failWith .shape s := by
  rw [← length_stageInts s len] at h
  simp only [exec, execBuild, fromFlat_of_not_square h]

theorem exec_build_of_bad_dimension (hn : n = 0 ∨ s.cfg.nMax < n) :
    exec (.build md (n * n)) s = failWith .dimension s := by
  simp only [exec, execBuild, fromFlat_of_bad_dimension (length_stageInts s (n * n)).symm hn]

/-- BUILD of a square number of words leaves the first staging words, normalized and padded, in its destination. -/
theorem exec_build_of_square (hpos : 1 ≤ n) (hle : n ≤ s.cfg.nMax) :
    exec (.build md (n * n)) s =
      succeed (s.setMatrix md { dim := n, e := padTo s.cfg.slots ((s.stageInts (n * n)).map normalize26) }) := by
  simp only [exec, execBuild, fromFlat_of_square (length_stageInts s (n * n)).symm hpos hle]

/-- The padding behind the normalized staging words, counted. -/
theorem padTo_map_stageInts (m : Nat) :
    padTo m ((s.stageInts len).map normalize26) =
      (List.range len).map (fun i => BitVec.ofNat 5 ((s.stage.getD i 0).toInt % 26).toNat) ++
        List.replicate (m - len) 0 := by
  rw [padTo, List.length_map, length_stageInts, State.stageInts, List.map_map]
  rfl

end Build

end Sys2Proof.Machine

namespace Sys2Proof.Claims

open Sys2Proof.Machine

/-- A commit that succeeds and replaces a matrix register changes nothing else but STATUS. -/
theorem succeed_setMatrix (s : State) (md : MNum) (m : MReg) :
    succeed (s.setMatrix md m) = .next { s with mreg := s.mreg.set md.val m, status := endedStatus s .ok } := rfl

/-- A commit that records an error changes STATUS alone. -/
theorem failWith_eq (e : ErrCode) (s : State) : failWith e s = .next { s with status := endedStatus s e } := rfl

/-- The words of BUILD (30_encoding.md R50). -/
theorem decodeCmd_eq_build_iff {w : Word} {md : MNum} {len : Nat} :
    decodeCmd w = .ok (.build md len) ↔
      len ≤ 255 ∧ w = (0x3#32 ||| BitVec.ofNat 32 md.val <<< 4 ||| BitVec.ofNat 32 len <<< 8) := by
  rw [decodeCmd_eq_ok_iff_eq_encode, Instr.wf, immOk, decide_eq_true_iff, encode]
  refine and_congr_right fun h => ?_
  rw [packCmd_eq_or 3 md 0 h]
  simp

/-- A legal word with the opcode of BUILD has `MS` and `RSV` zero. -/
theorem illegalWhere_build : illegalWhere 3 (fun w => msNonzero w ∨ rsvNonzero w) := by
  refine illegalWhere_of_ok fun w i hw hi => ?_
  have hop : fieldOP w = 3 := BitVec.eq_of_toNat_eq ((fieldOP_toNat w).trans hw)
  obtain ⟨hrsv, hms, -⟩ : fieldRSV w = 0 ∧ fieldMS w = 0 ∧ .build (fieldMD w) (fieldIMM w) = i := by
    simpa [hop] using decodeCmd_eq_ok_iff.mp hi
  rw [msNonzero, ← fieldMS_val, hms, rsvNonzero, ← fieldRSV_toNat, hrsv]
  decide

/-- Settles O40: the three outcomes are those of FromFlat on the staging words, which the perfect square check tells
apart; the words are those that encode a BUILD. -/
theorem buildResult : Obligations.BuildResult := by
  unfold Obligations.BuildResult
  refine ⟨fun s md n hpos hle => ?_, fun s md len => ⟨fun hsq => ?_, ?_⟩, fun w md len => decodeCmd_eq_build_iff,
    illegalWhere_build⟩
  · rw [exec_build_of_square hpos hle, padTo_map_stageInts, succeed_setMatrix, Config.slots]
  · rw [exec_build_of_not_square hsq, failWith_eq]
  · rintro n rfl hn
    rw [exec_build_of_bad_dimension hn, failWith_eq]

end Sys2Proof.Claims
end

section
/-! PROOFS. The determinant engine: the minor as a row-major submatrix, the cases of Det, and the command DET with its
words and the illegal words with its opcode (42_determinant.md R90, R91, R93; 30_encoding.md R50, R54). -/

namespace Sys2Proof.Machine

/-! ### Flat indices of an array, row by row (00_scope.md R9) -/

theorem flatIndex_div {n a b : Nat} (h : b < n) : (a * n + b) / n = a := by
  rw [Nat.mul_comm, Nat.mul_add_div (Nat.zero_lt_of_lt h), Nat.div_eq_of_lt h, Nat.add_zero]

/-- A filter by row and by column keeps the chosen columns of each chosen row. -/
theorem filter_range_mul (m n : Nat) (p q : Nat → Bool) :
    (List.range (m * n)).filter (fun k => p (k / n) && q (k % n)) =
      ((List.range m).filter p).flatMap (fun a => ((List.range n).filter q).map (a * n + ·)) := by
  induction m with
  | zero => simp
  | succ m ih =>
    have hrow : (List.range n).filter ((fun k => p (k / n) && q (k % n)) ∘ (m * n + ·)) =
        (List.range n).filter (fun b => p m && q b) := by
      refine List.filter_congr fun b hb => ?_
      have hb : b < n := List.mem_range.mp hb
      simp only [Function.comp_apply, flatIndex_div hb, Nat.mul_add_mod_of_lt hb]
    rw [Nat.succ_mul, List.range_add, List.filter_append, ih, List.filter_map, hrow, List.range_succ,
      List.filter_append, List.flatMap_append]
    cases hp : p m <;> simp [hp]

/-- A function of the row and the column, mapped over the flat indices. -/
theorem map_range_mul {α : Type} (m n : Nat) (f : Nat → Nat → α) :
    (List.range (m * n)).map (fun k => f (k / n) (k % n)) =
      (List.range m).flatMap (fun a => (List.range n).map (f a)) := by
  have hrows : List.range (m * n) = (List.range m).flatMap (fun a => (List.range n).map (a * n + ·)) := by
    simpa using filter_range_mul m n (fun _ => true) (fun _ => true)
  rw [hrows, List.map_flatMap]
  refine List.flatMap_congr fun a _ => ?_
  rw [List.map_map]
  refine List.map_congr_left fun b hb => ?_
  have hb : b < n := List.mem_range.mp hb
  simp only [Function.comp_apply, flatIndex_div hb, Nat.mul_add_mod_of_lt hb]

/-! ### The minor (42_determinant.md R90) -/

/-- Position `i` among the indices other than `k`. -/
def skipIndex (k i : Nat) : Nat := if i < k then i else i + 1

theorem filter_range_ne {n k : Nat} (h : k < n) :
    (List.range n).filter (fun i => decide (i ≠ k)) = (List.range (n - 1)).map (skipIndex k) := by
  have herase : (List.range n).filter (fun i => decide (i ≠ k)) = (List.range n).eraseIdx k := by
    have hk : k < (List.range n).length := by rwa [List.length_range]
    rw [← List.nodup_range.erase_getElem k hk, List.nodup_range.erase_eq_filter, List.getElem_range]
    exact List.filter_congr fun i _ => Bool.eq_iff_iff.mpr (by simp)
  rw [herase]
  refine List.ext_getElem (by simp [List.length_eraseIdx, h]) fun i _ _ => ?_
  simp [List.getElem_eraseIdx, skipIndex]

/-- The indices that stay, row by row. -/
theorem minorIndices_eq {n r c : Nat} (hr : r < n) (hc : c < n) :
    minorIndices n r c = (List.range ((n - 1) * (n - 1))).map
      (fun k => skipIndex r (k / (n - 1)) * n + skipIndex c (k % (n - 1))) := by
  rw [minorIndices, filter_range_mul n n (fun a => decide (a ≠ r)) (fun b => decide (b ≠ c)), filter_range_ne hr,
    filter_range_ne hc, List.flatMap_map, map_range_mul _ _ (fun i j => skipIndex r i * n + skipIndex c j)]
  simp only [List.map_map, Function.comp_def]

theorem minor_eq {n r c : Nat} (e : List Residue) (hr : r < n) (hc : c < n) :
    minor e n r c = (List.range ((n - 1) * (n - 1))).map
      (fun k => elem e (skipIndex r (k / (n - 1)) * n + skipIndex c (k % (n - 1)))) := by
  rw [minor, minorIndices_eq hr hc, List.map_map, Function.comp_def]

theorem length_minor {n r c : Nat} (e : List Residue) (hr : r < n) (hc : c < n) :
    (minor e n r c).length = (n - 1) * (n - 1) := by
  rw [minor_eq e hr hc, List.length_map, List.length_range]

theorem elem_minor {n r c i j : Nat} (e : List Residue) (hr : r < n) (hc : c < n) (hi : i < n - 1) (hj : j < n - 1) :
    elem (minor e n r c) (i * (n - 1) + j) = elem e (skipIndex r i * n + skipIndex c j) := by
  have hlt : i * (n - 1) + j < (n - 1) * (n - 1) := by
    rw [← Nat.div_lt_iff_lt_mul (Nat.zero_lt_of_lt hj), flatIndex_div hj]
    exact hi
  rw [minor_eq e hr hc, elem_map_range _ hlt, flatIndex_div hj, Nat.mul_add_mod_of_lt hj]

/-! ### The determinant (42_determinant.md R91) -/

theorem sign_eq_neg_one_pow (i : Nat) : sign i = (-1) ^ i := by
  rw [sign, neg_one_pow_eq_pow_mod_two]
  rcases Nat.mod_two_eq_zero_or_one i with h | h <;> simp [h]

theorem det_one (e : List Residue) : det 1 e = elem e 0 := rfl

theorem det_two (e : List Residue) :
    det 2 e = normalize26 (val (elem e 0) * val (elem e 3) - val (elem e 1) * val (elem e 2)) := rfl

/-- The cofactor expansion along the first row. -/
theorem det_of_two_lt {n : Nat} (e : List Residue) (h : 2 < n) :
    det n e =
      normalize26 (∑ i ∈ Finset.range n, (-1) ^ i * val (elem e i) * val (det (n - 1) (minor e n 0 i))) := by
  match n, h with
  | m + 3, _ =>
    have hsum (f : Nat → ℤ) : ((List.range (m + 3)).map f).sum = ∑ i ∈ Finset.range (m + 3), f i := rfl
    rw [det, hsum]
    simp only [sign_eq_neg_one_pow, Nat.add_one_sub_one]

/-! ### The command DET (42_determinant.md R93) -/

theorem exec_det_of_dim_ne_zero {s : State} {ms : MNum} (h : (s.matrix ms).dim ≠ 0) :
    exec (.det ms) s =
      succeed (s.setScalarOut (BitVec.ofNat 32 (det (s.matrix ms).dim (s.matrix ms).e).toNat)) := by
  rw [exec, execDet, withSource_of_dim_ne_zero h, zext32_eq_ofNat]

theorem exec_det_of_dim_eq_zero {s : State} {ms : MNum} (h : (s.matrix ms).dim = 0) :
    exec (.det ms) s = failWith .empty s := by
  rw [exec, execDet, withSource_empty h]

end Sys2Proof.Machine

namespace Sys2Proof.Claims

open Sys2Proof.Machine

/-- The words of DET (30_encoding.md R50). -/
theorem decodeCmd_eq_det_iff {w : Word} {ms : MNum} :
    decodeCmd w = .ok (.det ms) ↔ w = (0x4#32 ||| BitVec.ofNat 32 ms.val <<< 6) := by
  rw [decodeCmd_eq_ok_iff_eq_encode, Instr.wf, encode, packCmd_eq_or 4 0 ms (Nat.zero_le 255)]
  simp

/-- A legal word with the opcode of DET has `MD`, `IMM` and `RSV` zero. -/
theorem illegalWhere_det : illegalWhere 4 (fun w => mdNonzero w ∨ immNonzero w ∨ rsvNonzero w) := by
  refine illegalWhere_of_ok fun w i hw hi => ?_
  have hop : fieldOP w = 4 := BitVec.eq_of_toNat_eq ((fieldOP_toNat w).trans hw)
  obtain ⟨hrsv, hmd, himm, -⟩ : fieldRSV w = 0 ∧ fieldMD w = 0 ∧ fieldIMM w = 0 ∧ .det (fieldMS w) = i := by
    simpa [hop] using decodeCmd_eq_ok_iff.mp hi
  rw [mdNonzero, ← fieldMD_val, hmd, immNonzero, ← fieldIMM_eq, himm, rsvNonzero, ← fieldRSV_toNat, hrsv]
  decide

/-- Settles O42: the source register is empty or holds a matrix, and each case is one outcome; the words are those that
encode a DET. -/
theorem detResult : Obligations.DetResult := by
  unfold Obligations.DetResult
  refine ⟨fun s ms => ⟨fun h => ?_, fun h => ?_⟩, fun w ms => decodeCmd_eq_det_iff, illegalWhere_det⟩
  · rw [exec_det_of_dim_ne_zero h, succeed_setScalarOut]
  · rw [exec_det_of_dim_eq_zero h, failWith_eq]

/-- Settles O52: the flat indices that the deletion keeps are, row by row, those of the smaller matrix with row `r` and
column `c` skipped. -/
theorem minorDeletesRowAndColumn : Obligations.MinorDeletesRowAndColumn := by
  unfold Obligations.MinorDeletesRowAndColumn
  exact fun e n r c _ hr hc => ⟨length_minor e hr hc, fun i j hi hj => elem_minor e hr hc hi hj⟩

/-- Settles O54: the engine's sign is the power of -1, and its sum over a list is the sum over the column index. -/
theorem detExpandsAlongFirstRow : Obligations.DetExpandsAlongFirstRow := by
  unfold Obligations.DetExpandsAlongFirstRow
  exact fun e => ⟨det_one e, det_two e, fun _ => det_of_two_lt e⟩

end Sys2Proof.Claims
end

section
/-! PROOFS. The inverse: the transpose, the entries that INV writes, the determinants without an inverse, and the
command INV with its words and the illegal words with its opcode (43_inverse.md R100, R104, R106; 30_encoding.md R50, R54). -/

namespace Sys2Proof.Machine

/-! ### The transpose (43_inverse.md R100) -/

theorem flatIndex_lt {m n a b : Nat} (ha : a < m) (hb : b < n) : a * n + b < m * n := by
  rw [← Nat.div_lt_iff_lt_mul (Nat.zero_lt_of_lt hb), flatIndex_div hb]
  exact ha

theorem length_transpose (e : List Residue) (n : Nat) : (transpose e n).length = n * n := by
  rw [transpose, List.length_map, List.length_range]

theorem elem_transpose {n r c : Nat} (e : List Residue) (hr : r < n) (hc : c < n) :
    elem (transpose e n) (r * n + c) = elem e (c * n + r) := by
  rw [transpose, elem_map_range _ (flatIndex_lt hr hc), flatIndex_div hc, Nat.mul_add_mod_of_lt hc]

/-! ### The determinants without an inverse (43_inverse.md R101, R104) -/

/-- The determinant of a matrix of residues is a residue. -/
theorem det_lt (n : Nat) {e : List Residue} (h : ∀ i, (elem e i).toNat < 26) : (det n e).toNat < 26 := by
  match n with
  | 0 => exact (by decide : (0 : Residue).toNat < 26)
  | 1 => exact h 0
  | 2 => exact normalize26_lt _
  | m + 3 => exact normalize26_lt _

/-- The normalizing before the lookup changes nothing on a matrix of residues. -/
theorem detInverse_eq_invTab_det (n : Nat) {e : List Residue} (h : ∀ i, (elem e i).toNat < 26) :
    detInverse n e = invTab (det n e) := by
  rw [detInverse, normalize26_val (det_lt n h)]

theorem invTab_eq_zero_iff {r : Residue} (hr : r.toNat < 26) : invTab r = 0 ↔ Int.gcd (val r) 26 ≠ 1 :=
  not_iff_not.mp ((invTab_ne_zero_iff hr).trans not_not.symm)

/-- The prime factors of 26 are 2 and 13, and 13 divides only 0 and 13 below 26. -/
theorem gcd26_ne_one_iff {k : Nat} (hk : k < 26) : Nat.gcd k 26 ≠ 1 ↔ k % 2 = 0 ∨ k = 13 := by
  have hfactors : Nat.gcd k 26 = 1 ↔ ¬2 ∣ k ∧ ¬13 ∣ k := by
    rw [← Nat.Prime.coprime_iff_not_dvd Nat.prime_two, ← Nat.Prime.coprime_iff_not_dvd (by norm_num : Nat.Prime 13),
      ← Nat.coprime_mul_iff_left]
    exact Nat.coprime_comm (m := 26)
  rw [Ne, hfactors]
  omega

/-! ### The command INV (43_inverse.md R106) -/

section Inv

variable {s : State} {md ms : MNum}

theorem exec_inv_of_dim_eq_zero (h : (s.matrix ms).dim = 0) : exec (.inv md ms) s = failWith .empty s := by
  rw [exec, execInv, withSource_empty h]

theorem exec_inv_of_detInverse_eq_zero (h : (s.matrix ms).dim ≠ 0)
    (hd : detInverse (s.matrix ms).dim (s.matrix ms).e = 0) : exec (.inv md ms) s = failWith .singular s := by
  rw [exec, execInv, withSource_of_dim_ne_zero h, if_pos hd]

theorem exec_inv_of_detInverse_ne_zero (h : (s.matrix ms).dim ≠ 0)
    (hd : detInverse (s.matrix ms).dim (s.matrix ms).e ≠ 0) :
    exec (.inv md ms) s = succeed (s.setMatrix md
      { dim := (s.matrix ms).dim
        e := padTo s.cfg.slots (inverseEntries (s.matrix ms).dim (s.matrix ms).e
          (detInverse (s.matrix ms).dim (s.matrix ms).e)) }) := by
  rw [exec, execInv, withSource_of_dim_ne_zero h, if_neg hd]

/-- A commit that succeeds is none that records an error. -/
theorem succeed_ne_failWith {s t : State} {e : ErrCode} (he : e ≠ .ok) : succeed t ≠ failWith e s := by
  intro h
  have herr : (t.commit .ok).status.err = (s.commit e).status.err := by rw [Host.Outcome.next.inj h]
  exact he herr.symm

theorem exec_inv_eq_singular_iff (h : (s.matrix ms).dim ≠ 0) :
    exec (.inv md ms) s = failWith .singular s ↔ detInverse (s.matrix ms).dim (s.matrix ms).e = 0 := by
  refine ⟨fun hexec => ?_, exec_inv_of_detInverse_eq_zero h⟩
  by_contra hd
  rw [exec_inv_of_detInverse_ne_zero h hd] at hexec
  exact succeed_ne_failWith (by decide) hexec

end Inv

end Sys2Proof.Machine

namespace Sys2Proof.Claims

open Sys2Proof.Machine

/-- The three rules of INV, by dimension, are one rule for the entry at each flat index. -/
theorem inverseEntries_eq {n : Nat} (hn : n ≠ 0) (e : List Residue) (d : Residue) :
    inverseEntries n e d = (List.range (n * n)).map (inverseEntry n e d) := by
  match n, hn with
  | 1, _ => rfl
  | 2, _ => rfl
  | m + 3, _ =>
    have h1 : m + 3 ≠ 1 := by omega
    have h2 : m + 3 ≠ 2 := by omega
    rw [inverseEntries, if_neg h1, if_neg h2, adjScaled]
    refine List.map_congr_left fun i _ => ?_
    rw [inverseEntry, if_neg h1, if_neg h2, sign_eq_neg_one_pow]

/-- The entries that INV writes, with the padding behind them counted. -/
theorem padTo_inverseEntries {n : Nat} (hn : n ≠ 0) (m : Nat) (e : List Residue) (d : Residue) :
    padTo m (inverseEntries n e d) =
      (List.range (n * n)).map (inverseEntry n e d) ++ List.replicate (m - n * n) 0 := by
  rw [padTo, inverseEntries_eq hn, List.length_map, List.length_range]

/-- The words of INV (30_encoding.md R50). -/
theorem decodeCmd_eq_inv_iff {w : Word} {md ms : MNum} :
    decodeCmd w = .ok (.inv md ms) ↔
      w = (0x5#32 ||| BitVec.ofNat 32 md.val <<< 4 ||| BitVec.ofNat 32 ms.val <<< 6) := by
  rw [decodeCmd_eq_ok_iff_eq_encode, Instr.wf, encode, packCmd_eq_or 5 md ms (Nat.zero_le 255)]
  simp

/-- A legal word with the opcode of INV has `IMM` and `RSV` zero. -/
theorem illegalWhere_inv : illegalWhere 5 (fun w => immNonzero w ∨ rsvNonzero w) := by
  refine illegalWhere_of_ok fun w i hw hi => ?_
  have hop : fieldOP w = 5 := BitVec.eq_of_toNat_eq ((fieldOP_toNat w).trans hw)
  obtain ⟨hrsv, himm, -⟩ : fieldRSV w = 0 ∧ fieldIMM w = 0 ∧ .inv (fieldMD w) (fieldMS w) = i := by
    simpa [hop] using decodeCmd_eq_ok_iff.mp hi
  rw [immNonzero, ← fieldIMM_eq, himm, rsvNonzero, ← fieldRSV_toNat, hrsv]
  decide

/-- Settles O53: the flat index `r * n + c` has the row `r` and the column `c`, which the transpose swaps. -/
theorem transposeSwapsRowsAndColumns : Obligations.TransposeSwapsRowsAndColumns := by
  unfold Obligations.TransposeSwapsRowsAndColumns
  exact fun e n => ⟨length_transpose e n, fun r c hr hc => elem_transpose e hr hc⟩

/-- Settles O43: the inverse lookup of the determinant is the engine's `dInv`, which tells SINGULAR from success; the
words are those that encode an INV. -/
theorem invResult : Obligations.InvResult := by
  unfold Obligations.InvResult
  refine ⟨?_, fun w md ms => decodeCmd_eq_inv_iff, illegalWhere_inv⟩
  rintro s md ms d rfl
  refine ⟨fun h => ?_, fun h hd => ?_, fun h hd => ?_⟩
  · rw [exec_inv_of_dim_eq_zero h, failWith_eq]
  · rw [exec_inv_of_detInverse_eq_zero h hd, failWith_eq]
  · rw [exec_inv_of_detInverse_ne_zero h hd, padTo_inverseEntries h, succeed_setMatrix, Config.slots, detInverse]

/-- Settles O44: the determinant of residues is a residue, so its lookup is 0 exactly when it shares a prime factor, 2
or 13, with 26. -/
theorem invSingular : Obligations.InvSingular := by
  unfold Obligations.InvSingular
  intro s md ms h hok
  have hlt := det_lt (s.matrix ms).dim hok.residues
  refine ⟨?_, invTab_eq_zero_iff hlt, gcd26_ne_one_iff hlt⟩
  rw [← failWith_eq, exec_inv_eq_singular_iff h, detInverse_eq_invTab_det _ hok.residues, invTab_eq_zero_iff hlt]

end Sys2Proof.Claims
end

section
/-! PROOFS. The matrix queries: the words of a column, and the commands COL and DIM with their words and the illegal
words with their opcodes (44_matrix_query.md R120, R122; 30_encoding.md R50, R54). -/

namespace Sys2Proof.Machine

section Queries

variable {s : State} {ms : MNum} {j : Nat}

/-! ### The command COL (44_matrix_query.md R120) -/

theorem exec_col_of_lt (h : j < (s.matrix ms).dim) :
    exec (.col ms j) s = succeed (s.setVecOut (columnWords s.cfg (s.matrix ms) j)) := by
  rw [exec, execCol, withSource_of_dim_ne_zero (Nat.ne_zero_of_lt h), if_neg (Nat.not_le.mpr h)]

theorem exec_col_of_le (h : (s.matrix ms).dim ≠ 0) (hj : (s.matrix ms).dim ≤ j) :
    exec (.col ms j) s = failWith .index s := by
  rw [exec, execCol, withSource_of_dim_ne_zero h, if_pos hj]

theorem exec_col_of_dim_eq_zero (h : (s.matrix ms).dim = 0) : exec (.col ms j) s = failWith .empty s := by
  rw [exec, execCol, withSource_empty h]

/-- The words of a column, each as the word of its residue's number. -/
theorem columnWords_eq (c : Config) (m : MReg) (j : Nat) :
    columnWords c m j = (List.range c.nMax).map (fun k =>
      if k < m.dim then BitVec.ofNat 32 (m.e.getD (j + k * m.dim) 0).toNat else 0) := by
  simp only [columnWords, zext32_eq_ofNat, elem]

/-! ### The command DIM (44_matrix_query.md R122) and the dimension in the window (20_memory.md R32) -/

theorem exec_dim_of_dim_ne_zero (h : (s.matrix ms).dim ≠ 0) :
    exec (.dim ms) s = succeed (s.setScalarOut (BitVec.ofNat 32 (s.matrix ms).dim)) := by
  rw [exec, execDim, withSource_of_dim_ne_zero h]

theorem exec_dim_of_dim_eq_zero (h : (s.matrix ms).dim = 0) : exec (.dim ms) s = failWith .empty s := by
  rw [exec, execDim, withSource_empty h]

theorem peek_mdim : s.peek (BitVec.ofNat 9 (0x008 + ms.val)) = BitVec.ofNat 32 (s.matrix ms).dim := by
  rw [State.peek, decodeAddr_mdim_at, State.readReg]

end Queries

end Sys2Proof.Machine

namespace Sys2Proof.Claims

open Sys2Proof.Machine

/-- A commit that succeeds and leaves words in `VEC_OUT` changes nothing else but STATUS. -/
theorem succeed_setVecOut (s : State) (v : List Word) :
    succeed (s.setVecOut v) = .next { s with vecOut := v, status := endedStatus s .ok } := rfl

/-! ### The words -/

section Words

variable {w : Word} {ms : MNum} {j : Nat}

/-- The words of COL (30_encoding.md R50). -/
theorem decodeCmd_eq_col_iff :
    decodeCmd w = .ok (.col ms j) ↔
      j ≤ 255 ∧ w = (0x6#32 ||| BitVec.ofNat 32 ms.val <<< 6 ||| BitVec.ofNat 32 j <<< 8) := by
  rw [decodeCmd_eq_ok_iff_eq_encode, Instr.wf, immOk, decide_eq_true_iff, encode]
  refine and_congr_right fun h => ?_
  rw [packCmd_eq_or 6 0 ms h]
  simp

/-- The words of DIM (30_encoding.md R50). -/
theorem decodeCmd_eq_dim_iff :
    decodeCmd w = .ok (.dim ms) ↔ w = (0x7#32 ||| BitVec.ofNat 32 ms.val <<< 6) := by
  rw [decodeCmd_eq_ok_iff_eq_encode, Instr.wf, encode, packCmd_eq_or 7 0 ms (Nat.zero_le 255)]
  simp

theorem not_mdNonzero_iff : ¬ mdNonzero w ↔ fieldMD w = 0 := by
  rw [mdNonzero, not_not, ← fieldMD_val, Fin.val_eq_zero_iff]

theorem not_immNonzero_iff : ¬ immNonzero w ↔ fieldIMM w = 0 := by
  rw [immNonzero, not_not, ← fieldIMM_eq]

theorem not_rsvNonzero_iff : ¬ rsvNonzero w ↔ fieldRSV w = 0 := by
  rw [rsvNonzero, not_not, ← fieldRSV_toNat]
  exact BitVec.toNat_inj (y := 0)

end Words

/-- Words are illegal where every legal word with the opcode in its field `OP` is not `bad`. -/
theorem illegalWhere_of_fieldOP {op : BitVec 4} {bad : Word → Prop}
    (h : ∀ w i, fieldOP w = op → decodeCmd w = .ok i → ¬ bad w) : illegalWhere op.toNat bad :=
  illegalWhere_of_ok fun w i hw => h w i (BitVec.eq_of_toNat_eq ((fieldOP_toNat w).trans hw))

/-- A legal word with the opcode of COL has `MD` and `RSV` zero. -/
theorem illegalWhere_col : illegalWhere 6 (fun w => mdNonzero w ∨ rsvNonzero w) := by
  refine illegalWhere_of_fieldOP (op := 6) fun w i hop hi => ?_
  obtain ⟨hrsv, hmd, -⟩ : fieldRSV w = 0 ∧ fieldMD w = 0 ∧ .col (fieldMS w) (fieldIMM w) = i := by
    simpa [hop] using decodeCmd_eq_ok_iff.mp hi
  exact not_or_intro (not_mdNonzero_iff.mpr hmd) (not_rsvNonzero_iff.mpr hrsv)

/-- A legal word with the opcode of DIM has `MD`, `IMM` and `RSV` zero. -/
theorem illegalWhere_dim : illegalWhere 7 (fun w => mdNonzero w ∨ immNonzero w ∨ rsvNonzero w) := by
  refine illegalWhere_of_fieldOP (op := 7) fun w i hop hi => ?_
  obtain ⟨hrsv, hmd, himm, -⟩ : fieldRSV w = 0 ∧ fieldMD w = 0 ∧ fieldIMM w = 0 ∧ .dim (fieldMS w) = i := by
    simpa [hop] using decodeCmd_eq_ok_iff.mp hi
  exact not_or_intro (not_mdNonzero_iff.mpr hmd)
    (not_or_intro (not_immNonzero_iff.mpr himm) (not_rsvNonzero_iff.mpr hrsv))

/-- Settles O45: the source register is empty, holds the column, or holds a matrix without it, and each case is one
outcome; the words are those that encode a COL. -/
theorem colResult : Obligations.ColResult := by
  unfold Obligations.ColResult
  refine ⟨fun s ms j => ⟨fun hj => ?_, fun h hj => ?_, fun h => ?_⟩, fun w ms j => decodeCmd_eq_col_iff,
    illegalWhere_col⟩
  · rw [exec_col_of_lt hj, succeed_setVecOut, columnWords_eq]
  · rw [exec_col_of_le h hj, failWith_eq]
  · rw [exec_col_of_dim_eq_zero h, failWith_eq]

/-- Settles O46: an empty register is one of dimension 0, which DIM refuses and `MDIM` reads; the words are those that
encode a DIM. -/
theorem dimResult : Obligations.DimResult := by
  unfold Obligations.DimResult
  refine ⟨fun s ms => ⟨fun h => ?_, fun h => ⟨?_, ?_⟩⟩, fun w ms => decodeCmd_eq_dim_iff, illegalWhere_dim⟩
  · rw [exec_dim_of_dim_ne_zero h, succeed_setScalarOut]
  · rw [exec_dim_of_dim_eq_zero h, failWith_eq]
  · rw [peek_mdim, h, BitVec.ofNat_eq_ofNat]

end Sys2Proof.Claims
end

section
/-! PROOFS. The control command NOP, with its word and the illegal words with its opcode (45_control.md R130;
30_encoding.md R50, R54). -/

namespace Sys2Proof.Machine

theorem exec_nop (s : State) : exec .nop s = succeed s := rfl

end Sys2Proof.Machine

namespace Sys2Proof.Claims

open Sys2Proof.Machine

/-- A commit that succeeds and leaves no result changes STATUS alone. -/
theorem succeed_eq (s : State) : succeed s = .next { s with status := endedStatus s .ok } := rfl

/-- Settles O37: NOP is a commit that succeeds and leaves no result, and its encoding is its opcode 0 alone. -/
theorem nopWritesOnlyStatus : Obligations.NopWritesOnlyStatus := by
  unfold Obligations.NopWritesOnlyStatus
  refine ⟨fun s => ?_, fun w => decodeCmd_eq_ok_iff_of_noOperand (.inl rfl),
    illegalWhere_ne_packCmd (op := 0) (by decide)⟩
  rw [exec_nop, succeed_eq]

end Sys2Proof.Claims
end

section
/-! PROOFS. The life of a command: the accept, the overrun, and the error that a commit records
(60_exceptions.md R143 to R148). -/

namespace Sys2Proof.Machine

/-! ### Writes of the inputs and of STATUS (60_exceptions.md R143, R147) -/

section InputWrites

variable {s : State} (w : Word)

theorem hostWrite_status (s : State) : s.hostWrite 0x003 w = s.setStatus (s.status.written w) := rfl

theorem hostWrite_cmd_of_idle (hb : s.status.busy = false) : s.hostWrite 0x004 w = s.accept w := by
  rw [State.hostWrite, decodeAddr_cmd.mpr rfl]
  simp only [hb, Bool.false_eq_true, if_false]

theorem hostWrite_cmd_of_busy (hb : s.status.busy = true) : s.hostWrite 0x004 w = s.overrun := by
  rw [State.hostWrite, decodeAddr_cmd.mpr rfl]
  simp only [hb, if_true]

theorem hostWrite_operand_of_busy (hb : s.status.busy = true) : s.hostWrite 0x005 w = s.overrun := by
  rw [State.hostWrite, decodeAddr_operand.mpr rfl]
  simp only [hb, if_true]

end InputWrites

/-! ### How a commit ends (60_exceptions.md R144, R145) -/

/-- A commit records an error and writes nothing else; or it succeeds over a state whose STATUS its command has left
alone. -/
theorem commitStep_fails_or_succeeds (s : State) :
    (∃ e, commitStep s = failWith e s) ∨ ∃ u : State, u.status = s.status ∧ commitStep s = succeed u := by
  rcases commitStep_cases s with ⟨i, -, hi⟩ | ⟨r, -, hr⟩
  · rw [hi]
    rcases exec_cases i s with ⟨e, -, h⟩ | ⟨-, h⟩ | ⟨w, -, h⟩ | ⟨ms, j, v, -, h⟩ | ⟨md, m, -, h⟩
    · exact .inl ⟨e, h⟩
    · exact .inr ⟨s, rfl, h⟩
    · exact .inr ⟨s.setScalarOut w, rfl, h⟩
    · exact .inr ⟨s.setVecOut v, rfl, h⟩
    · exact .inr ⟨s.setMatrix md m, rfl, h⟩
  · exact .inl ⟨.illegal, hr⟩

theorem eq_setStatus_of_commitStep_err_ne_ok {s t : State} (h : commitStep s = .next t) (herr : t.status.err ≠ .ok) :
    t = s.setStatus t.status := by
  rcases commitStep_fails_or_succeeds s with ⟨e, hs⟩ | ⟨u, -, hs⟩ <;>
    obtain rfl := Host.Outcome.next.inj (h.symm.trans hs)
  · rfl
  · exact absurd rfl herr

theorem ovr_eq_of_commitStep {s t : State} (h : commitStep s = .next t) : t.status.ovr = s.status.ovr := by
  rcases commitStep_fails_or_succeeds s with ⟨e, hs⟩ | ⟨u, hu, hs⟩ <;>
    obtain rfl := Host.Outcome.next.inj (h.symm.trans hs)
  · rfl
  · rw [State.commit_status, Status.committed_ovr, hu]

/-! ### The error that a commit records (60_exceptions.md R148) -/

/-- The outcome is a next state with the code `e` in `STATUS.ERR`. -/
def Records (e : ErrCode) (o : Outcome) : Prop := ∃ t, o = .next t ∧ t.status.err = e

theorem records_failWith (e : ErrCode) (s : State) : Records e (failWith e s) := ⟨_, rfl, rfl⟩

theorem records_succeed (s : State) : Records .ok (succeed s) := ⟨_, rfl, rfl⟩

/-- The engine's `dInv` is the sentinel 0 exactly when the determinant is not coprime to 26, whatever the entries. -/
theorem detInverse_eq_zero_iff {n : Nat} {e : List Residue} :
    detInverse n e = 0 ↔ Int.gcd (val (det n e)) 26 ≠ 1 := by
  rw [detInverse, invTab_eq_zero_iff (normalize26_lt _), val_normalize26, Int.gcd_emod]

section ExecRecords

variable (s : State) (md ms : MNum)

theorem records_exec_build (len : Nat) :
    Records (if Nat.sqrt len * Nat.sqrt len ≠ len then .shape
      else if len = 0 ∨ s.cfg.nMax < Nat.sqrt len then .dimension else .ok) (exec (.build md len) s) := by
  by_cases hsq : ∃ n, n * n = len
  · obtain ⟨n, rfl⟩ := hsq
    rw [Nat.sqrt_eq, if_neg (not_not_intro rfl)]
    simp only [mul_self_eq_zero]
    split
    next hn =>
      rw [exec_build_of_bad_dimension hn]
      exact records_failWith .dimension s
    next hn =>
      obtain ⟨hpos, hle⟩ : 1 ≤ n ∧ n ≤ s.cfg.nMax := by omega
      rw [exec_build_of_square hpos hle]
      exact records_succeed _
  · rw [if_pos (mt (Nat.exists_mul_self len).mpr hsq), exec_build_of_not_square (not_exists.mp hsq)]
    exact records_failWith .shape s

theorem records_exec_det :
    Records (if (s.matrix ms).dim = 0 then .empty else .ok) (exec (.det ms) s) := by
  split
  next h =>
    rw [exec_det_of_dim_eq_zero h]
    exact records_failWith .empty s
  next h =>
    rw [exec_det_of_dim_ne_zero h]
    exact records_succeed _

theorem records_exec_inv :
    Records (if (s.matrix ms).dim = 0 then .empty
      else if Int.gcd (val (det (s.matrix ms).dim (s.matrix ms).e)) 26 ≠ 1 then .singular else .ok)
      (exec (.inv md ms) s) := by
  split
  next h =>
    rw [exec_inv_of_dim_eq_zero h]
    exact records_failWith .empty s
  next h =>
    split
    next hd =>
      rw [exec_inv_of_detInverse_eq_zero h (detInverse_eq_zero_iff.mpr hd)]
      exact records_failWith .singular s
    next hd =>
      rw [exec_inv_of_detInverse_ne_zero h (mt detInverse_eq_zero_iff.mp hd)]
      exact records_succeed _

theorem records_exec_col (j : Nat) :
    Records (if (s.matrix ms).dim = 0 then .empty else if (s.matrix ms).dim ≤ j then .index else .ok)
      (exec (.col ms j) s) := by
  split
  next h =>
    rw [exec_col_of_dim_eq_zero h]
    exact records_failWith .empty s
  next h =>
    split
    next hj =>
      rw [exec_col_of_le h hj]
      exact records_failWith .index s
    next hj =>
      rw [exec_col_of_lt (Nat.not_le.mp hj)]
      exact records_succeed _

theorem records_exec_dim :
    Records (if (s.matrix ms).dim = 0 then .empty else .ok) (exec (.dim ms) s) := by
  split
  next h =>
    rw [exec_dim_of_dim_eq_zero h]
    exact records_failWith .empty s
  next h =>
    rw [exec_dim_of_dim_ne_zero h]
    exact records_succeed _

end ExecRecords

/-! ### A commit after an overrun (60_exceptions.md R147) -/

/-- The same outcome with OVR set in the next state. -/
def overrunOutcome : Outcome → Outcome
  | .next t => .next t.overrun
  | .fault r => .fault r
  | .refused r => .refused r

section OverrunCommit

variable (s : State)

theorem failWith_overrun (e : ErrCode) : failWith e s.overrun = overrunOutcome (failWith e s) := rfl

theorem withSource_overrun {k k' : MReg → Outcome} (h : ∀ m, k' m = overrunOutcome (k m)) (ms : MNum) :
    withSource ms k' s.overrun = overrunOutcome (withSource ms k s) := by
  rcases withSource_cases ms k s with ⟨h0, hs⟩ | ⟨h0, hs⟩
  · rw [hs, withSource_empty (s := s.overrun) h0, failWith_overrun]
  · rw [hs, withSource_of_dim_ne_zero (s := s.overrun) h0, State.matrix_overrun, h]

/-- No command reads OVR, and none writes it. -/
theorem exec_overrun (i : Instr) : exec i s.overrun = overrunOutcome (exec i s) := by
  cases i with
  | nop => rfl
  | norm => rfl
  | rinv => rfl
  | build md len =>
    have hvals : fromFlat s.overrun.cfg (s.overrun.stageInts len) = fromFlat s.cfg (s.stageInts len) := rfl
    simp only [exec, execBuild, hvals]
    cases fromFlat s.cfg (s.stageInts len) <;> rfl
  | det ms =>
    rw [exec, exec, execDet, execDet]
    refine withSource_overrun s (fun m => ?_) ms
    rfl
  | inv md ms =>
    rw [exec, exec, execInv, execInv]
    refine withSource_overrun s (fun m => ?_) ms
    split <;> rfl
  | col ms j =>
    rw [exec, exec, execCol, execCol]
    refine withSource_overrun s (fun m => ?_) ms
    split <;> rfl
  | dim ms =>
    rw [exec, exec, execDim, execDim]
    refine withSource_overrun s (fun m => ?_) ms
    rfl

theorem commitStep_overrun : commitStep s.overrun = overrunOutcome (commitStep s) := by
  rw [commitStep, commitStep, State.overrun_cmd]
  cases decodeCmd s.cmd with
  | ok i => exact exec_overrun s i
  | error r => exact failWith_overrun s .illegal

end OverrunCommit

/-! ### The steps that clear OVR (60_exceptions.md R147) -/

section ClearsOvr

variable {s : State} (h1 : s.status.ovr = true)
include h1

theorem hostWrite_clears_ovr {a : WAddr} {w : Word} (h0 : (s.hostWrite a w).status.ovr = false) :
    a = 0x003 ∧ w.getLsbD 2 = true := by
  rcases hostWrite_cases a w s with h | ⟨-, h⟩ | ⟨ha, h⟩ | ⟨-, h⟩ | ⟨-, -, h⟩ | ⟨-, -, h⟩ | ⟨-, i, -, h⟩ <;>
    rw [h] at h0
  case inr.inr.inl =>
    refine ⟨decodeAddr_status.mp ha, ?_⟩
    simpa [h1] using h0
  all_goals simp [h1] at h0

theorem hostStep_clears_ovr {op : HostOp} (h0 : (s.hostStep op).status.ovr = false) :
    ∃ w, w.getLsbD 2 = true ∧ op = .write 0x003 w := by
  cases op with
  | read a =>
    rw [State.hostStep, hostRead_eq_withPort] at h0
    exact absurd (h1.symm.trans h0) Bool.noConfusion
  | write a w =>
    obtain ⟨rfl, hw⟩ := hostWrite_clears_ovr h1 h0
    exact ⟨w, hw, rfl⟩

theorem engineStep_keeps_ovr {t : State} (ht : engineStep s = .next t) : t.status.ovr = true := by
  rw [engineStep] at ht
  split at ht
  · exact (ovr_eq_of_commitStep ht).trans h1
  · rwa [← Host.Outcome.next.inj ht]

end ClearsOvr

end Sys2Proof.Machine

namespace Sys2Proof.Claims

open Sys2Proof.Machine

/-- Settles O13: a commit that records an error writes STATUS over the state as it was, and the accept has written
`CMD`. -/
theorem failedCommandWritesOnlyStatus : Obligations.FailedCommandWritesOnlyStatus := by
  unfold Obligations.FailedCommandWritesOnlyStatus
  refine ⟨fun s t h herr => eq_setStatus_of_commitStep_err_ne_ok h herr, fun s w hb => ?_⟩
  rw [hostWrite_cmd_of_idle w hb, State.accept_cmd]

/-- Settles O14: command by command, the checks of its effect stand in the order of the priority table. -/
theorem firstErrorIsRecorded : Obligations.FirstErrorIsRecorded := by
  unfold Obligations.FirstErrorIsRecorded
  intro s
  rcases commitStep_cases s with ⟨i, hd, hi⟩ | ⟨r, hd, hr⟩
  · rw [hi]
    cases i <;> simp only [firstError, hd]
    case nop => exact records_succeed _
    case norm => exact records_succeed _
    case rinv => exact records_succeed _
    case build md len => exact records_exec_build s md len
    case det ms => exact records_exec_det s ms
    case inv md ms => exact records_exec_inv s md ms
    case col ms j => exact records_exec_col s ms j
    case dim ms => exact records_exec_dim s ms
  · rw [hr]
    simp only [firstError, hd]
    exact records_failWith .illegal s

/-- Settles O22: a write of an input while BUSY = 1 is an overrun; no command reads or writes OVR; and among the steps
only a reset and a write of STATUS can clear it. -/
theorem overrunDiscardsTheWrite : Obligations.OverrunDiscardsTheWrite := by
  unfold Obligations.OverrunDiscardsTheWrite
  refine ⟨fun s a w hb => ⟨?_, ?_, ?_, ?_, ?_⟩, fun s t h => ?_, fun ev s t h h1 h0 => ?_⟩
  · rintro (rfl | rfl | hwindow)
    · exact hostWrite_cmd_of_busy w hb
    · exact hostWrite_operand_of_busy w hb
    · exact hostWrite_stagingWindow_of_busy w hb (decide_eq_true hwindow)
  · rw [hostWrite_ctrl, State.setCtrl_ctrl, Ctrl.written_ie]
  · rw [hostWrite_ctrl, State.setCtrl_status]
  · rw [hostWrite_status, State.setStatus_status, Status.written_ovr]
  · rw [hostWrite_status, State.setStatus_status, Status.written_done]
  · exact (commitStep_overrun s).trans (congrArg overrunOutcome h)
  · cases ev with
    | host op =>
      obtain rfl := Host.Outcome.next.inj h
      obtain ⟨w, hw, rfl⟩ := hostStep_clears_ovr h1 h0
      exact .inr ⟨w, hw, .inl rfl⟩
    | bus acc =>
      obtain rfl := Host.Outcome.next.inj h
      rcases busStep_cases acc s with ⟨-, hs⟩ | ⟨op, hop, hs⟩ <;> rw [hs] at h0
      · exact absurd (h1.symm.trans h0) Bool.noConfusion
      · obtain ⟨w, hw, rfl⟩ := hostStep_clears_ovr h1 h0
        exact .inr ⟨w, hw, .inr ⟨acc, rfl, hop⟩⟩
    | engine => exact absurd ((engineStep_keeps_ovr h1 h).symm.trans h0) Bool.noConfusion
    | reset => exact .inl rfl

/-- Settles O8: a write of `CMD` is the accept while BUSY = 0 and an overrun while BUSY = 1. -/
theorem acceptWritesCmdBusyDone : Obligations.AcceptWritesCmdBusyDone := by
  unfold Obligations.AcceptWritesCmdBusyDone
  exact fun s w => ⟨hostWrite_cmd_of_idle w, hostWrite_cmd_of_busy w⟩

end Sys2Proof.Claims
end

section
/-! PROOFS. The encoding as a whole: decode and encode undo each other, the legal words field by field, and the words of
the assembler (30_encoding.md R50 to R56). -/

namespace Sys2Proof

/-- The assembler writes exactly the words that decode to the command. -/
theorem assemble_eq_some_iff {i : Instr} {w : Word} : assemble i = some w ↔ decodeCmd w = .ok i := by
  rw [decodeCmd_eq_ok_iff_eq_encode, assemble, eq_comm (a := w)]
  cases i.wf <;> simp

theorem assemble_of_not_wf {i : Instr} (h : i.wf = false) : assemble i = none := by
  rw [assemble, h]
  rfl

end Sys2Proof

namespace Sys2Proof.Claims

/-- Settles O2: the word of a well-formed command is one of those that decode to it. -/
theorem decodeOfEncode : Obligations.DecodeOfEncode := by
  unfold Obligations.DecodeOfEncode
  exact fun i hwf => decodeCmd_eq_ok_iff_eq_encode.mpr ⟨hwf, rfl⟩

/-- Settles O3: only the encoding of a well-formed command decodes to it. -/
theorem encodeOfDecode : Obligations.EncodeOfDecode := by
  unfold Obligations.EncodeOfDecode
  intro w i h
  obtain ⟨hwf, hw⟩ := decodeCmd_eq_ok_iff_eq_encode.mp h
  exact ⟨hwf, hw.symm⟩

/-- Settles O5: opcode by opcode, the decoder requires `RSV` and the fields marked "0" to be zero and nothing else; each
field is a slice of the word's number. -/
theorem legalWordsExactly : Obligations.LegalWordsExactly := by
  unfold Obligations.LegalWordsExactly
  intro w
  simp only [decodeCmd_eq_ok_iff, exists_and_left, exists_or, exists_eq', and_true, ← BitVec.toNat_inj, Fin.ext_iff,
    fieldRSV_toNat, fieldOP_toNat, fieldMD_val, fieldMS_val, fieldIMM_eq, List.mem_cons, List.not_mem_nil, or_false,
    BitVec.ofNat_eq_ofNat, BitVec.toNat_ofNat]
  omega

theorem immOk_eq_false {n : Nat} (h : ¬ n ≤ 255) : immOk n = false := decide_eq_false h

/-- Settles O6: the assembler's words are those that decode to the command, and the one check that can fail is the range
of an immediate. -/
theorem assemblerWordsAndRefusals : Obligations.AssemblerWordsAndRefusals := by
  unfold Obligations.AssemblerWordsAndRefusals
  refine ⟨rfl, rfl, rfl, fun md len => ?_, fun ms => ?_, fun md ms => ?_, fun ms j => ?_, fun ms => ?_⟩
  · split
    next h => exact assemble_eq_some_iff.mpr (decodeCmd_eq_build_iff.mpr ⟨h, rfl⟩)
    next h => exact assemble_of_not_wf (immOk_eq_false h)
  · exact assemble_eq_some_iff.mpr (decodeCmd_eq_det_iff.mpr rfl)
  · exact assemble_eq_some_iff.mpr (decodeCmd_eq_inv_iff.mpr rfl)
  · split
    next h => exact assemble_eq_some_iff.mpr (decodeCmd_eq_col_iff.mpr ⟨h, rfl⟩)
    next h => exact assemble_of_not_wf (immOk_eq_false h)
  · exact assemble_eq_some_iff.mpr (decodeCmd_eq_dim_iff.mpr rfl)

/-- Settles O1: the model's decoder runs on each word. -/
theorem sampleWordsDecode : Obligations.SampleWordsDecode := by
  unfold Obligations.SampleWordsDecode
  decide

end Sys2Proof.Claims
end

section
/-! PROOFS. What the pseudo-instructions expand to (30_encoding.md R58). -/

namespace Sys2Proof.Machine

variable (k : Nat)

/-- The staging writes of LOADM, while their indices name staging words (20_memory.md R32). -/
theorem expandStage_eq (vals : List Word) (i : Nat) (h : i + vals.length ≤ 64) :
    expandStage i vals = some (vals.mapIdx (fun j v => .wr (BitVec.ofNat 9 (0x040 + (i + j))) v)) := by
  induction vals generalizing i with
  | nil => rfl
  | cons v vs ih =>
    rw [List.length_cons] at h
    have hreg : writeReg (.stage i) v = some (.wr (BitVec.ofNat 9 (0x040 + i)) v) := by
      rw [writeReg, regAddr, if_pos (by omega), Option.map_some]
    rw [expandStage, hreg, ih (i + 1) (by omega), List.mapIdx_cons]
    simp [Nat.add_assoc, Nat.add_comm 1]

theorem expandIssue_of_assemble {i : Instr} {w : Word} (h : assemble i = some w) :
    expandIssue i = some [.wr 0x004 w] := by
  rw [expandIssue, h, Option.map_some]

theorem expandCall_of_assemble {i : Instr} {w : Word} (h : assemble i = some w) :
    expandCall k i = some (.wr 0x004 w :: expandWait k) := by
  rw [expandCall, expandIssue_of_assemble h, Option.map_some, List.singleton_append]

theorem expand_wri_of_int32 {n : ℤ} (hlo : -2147483648 ≤ n) (hhi : n ≤ 2147483647) :
    (PseudoStmt.wri n).expand k = some [.wr 0x005 (BitVec.ofInt 32 n)] := by
  rw [PseudoStmt.expand, intWord, if_pos (by omega), Option.map_some]

theorem expand_loadm_of_length_le (md : MNum) {vals : List Word} (h : vals.length ≤ 64) :
    (PseudoStmt.loadm md vals).expand k = some
      (vals.mapIdx (fun i v => .wr (BitVec.ofNat 9 (0x040 + i)) v) ++
        .wr 0x004 (encode (.build md vals.length)) :: expandWait k) := by
  have hwf : (Instr.build md vals.length).wf = true := decide_eq_true (by omega)
  have hbuild := assemble_eq_some_iff.mpr (decodeCmd_eq_ok_iff_eq_encode.mpr ⟨hwf, rfl⟩)
  rw [PseudoStmt.expand, expandStage_eq vals 0 (by omega), expandCall_of_assemble k hbuild]
  simp only [Nat.zero_add, Option.map_some, Option.bind_some]

end Sys2Proof.Machine

namespace Sys2Proof.Claims

open Sys2Proof.Machine

/-- Settles O7: each expansion is its rows with the words that the assembler writes; LOADM of at most 64 words has a
staging word for each index and a BUILD the assembler accepts. -/
theorem pseudoInstructionExpansions : Obligations.PseudoInstructionExpansions := by
  unfold Obligations.PseudoInstructionExpansions
  rintro k x rfl
  exact ⟨fun i w h => ⟨expandIssue_of_assemble h, expandCall_of_assemble k h⟩, fun w => rfl, rfl,
    fun n => expand_wri_of_int32 k, fun md vals => expand_loadm_of_length_le k md⟩

end Sys2Proof.Claims
end

section
/-! PROOFS. The register window as a whole: the register map both ways, STATUS and the inputs through the port, reads
while a command is in flight, and the bridge (20_memory.md R30 to R41; 10_state.md R15 to R24;
70_reset_and_hazards.md R172). -/

namespace Sys2Proof.Claims

open Sys2Proof.Machine

/-! ### The register map (20_memory.md R32) -/

section Map

variable {c : Config} {a : WAddr}

/-- A word that is not reserved lies at the address of its register, which `N_MAX` implements. -/
theorem addressOf_decodeAddr (h : decodeAddr c a ≠ .reserved) :
    a.toNat = addressOf (decodeAddr c a) ∧ implemented c (decodeAddr c a) := by
  have hslots : c.slots = c.nMax * c.nMax := rfl
  rw [decodeAddr] at h ⊢
  rcases decodeIndex_cases c a.toNat with h' | h' | h' | h' | h' | h' | h' | h' | h' | h' | h' | h' <;>
    rw [h'.2] at h ⊢
  case inr.inr.inr.inr.inr.inr.inr.inr.inr.inr.inr => exact absurd rfl h
  all_goals
    simp only [addressOf, implemented, Fin.ofNat, and_true]
    omega

/-- The address of an implemented register decodes to it. -/
theorem decodeAddr_of_addressOf {r : Reg} (hr : implemented c r) (ha : a.toNat = addressOf r) :
    decodeAddr c a = r := by
  obtain rfl : a = BitVec.ofNat 9 (addressOf r) := by rw [← ha, BitVec.ofNat_toNat, BitVec.setWidth_eq]
  cases r with
  | mdim k => exact decodeAddr_mdim_at c k
  | stage i => exact decodeAddr_stage_at c hr
  | vecOut j => exact decodeAddr_vecOut_at c hr
  | melem k i => exact decodeAddr_melem_at c k hr
  | reserved => exact absurd hr id
  | id | param | ctrl | status | cmd | operand | scalarOut => rfl

end Map

/-- Settles O15: an address that is not reserved is its register's own, and every implemented register is found at its
address. -/
theorem registerMap : Obligations.RegisterMap := by
  unfold Obligations.RegisterMap
  refine fun c a => ⟨fun r hr => ⟨?_, fun ⟨ha, hi⟩ => decodeAddr_of_addressOf hi ha⟩, fun h r hi ha => ?_, fun h => ?_⟩
  · rintro rfl
    exact addressOf_decodeAddr hr
  · obtain rfl : r = .reserved := (decodeAddr_of_addressOf hi ha).symm.trans h
    exact hi
  · by_contra hr
    obtain ⟨ha, hi⟩ := addressOf_decodeAddr hr
    exact h _ hi ha

end Sys2Proof.Claims

namespace Sys2Proof.Machine

/-! ### STATUS and the inputs (10_state.md R15, R16, R20; 20_memory.md R36) -/

/-- The bits of STATUS, for every code of four bits. -/
theorem statusBits_toNat : ∀ (e : BitVec 4) (o d b : Bool),
    (0#24 ++ e ++ 0#1 ++ BitVec.ofBool o ++ BitVec.ofBool d ++ BitVec.ofBool b : Word).toNat =
      (if b then 1 else 0) + (if d then 2 else 0) + (if o then 4 else 0) + 16 * e.toNat := by
  decide

theorem Status.written_eq (t : Status) (w : Word) :
    t.written w = { t with
      done := if w.getLsbD 1 then false else t.done
      ovr := if w.getLsbD 2 then false else t.ovr } := by
  have hclear (b c : Bool) : (b && !c) = if c then false else b := by cases b <;> cases c <;> rfl
  rw [Status.written, hclear, hclear]

section IdleWrites

variable {s : State} (w : Word) (hb : s.status.busy = false)
include hb

theorem hostWrite_operand_of_idle : s.hostWrite 0x005 w = s.setOperand w := by
  rw [State.hostWrite, decodeAddr_operand.mpr rfl]
  simp only [hb, Bool.false_eq_true, if_false]

theorem hostWrite_stage_of_idle {i : Nat} (hi : i < s.cfg.slots) :
    s.hostWrite (BitVec.ofNat 9 (0x040 + i)) w = s.setStage i w := by
  rw [State.hostWrite, decodeAddr_stage_at s.cfg hi]
  simp only [hb, Bool.false_eq_true, if_false]

end IdleWrites

/-! ### Reads (20_memory.md R31; 70_reset_and_hazards.md R172) -/

theorem hostRead_of_unstable {s : State} {a : WAddr} (h : s.unstable (decodeAddr s.cfg a) = true) :
    s.hostRead a = { s with rdata := Config.freeRead s.draws, draws := s.draws + 1 } := by
  rw [State.hostRead, if_pos h]

section Peeks

variable {s : State}

theorem peek_stage {i : Nat} (h : i < s.cfg.slots) : s.peek (BitVec.ofNat 9 (0x040 + i)) = s.stage.getD i 0 := by
  rw [State.peek, decodeAddr_stage_at s.cfg h, State.readReg]

theorem peek_vecOut {j : Nat} (h : j < s.cfg.nMax) : s.peek (BitVec.ofNat 9 (0x080 + j)) = s.vecOut.getD j 0 := by
  rw [State.peek, decodeAddr_vecOut_at s.cfg h, State.readReg]

theorem peek_melem (k : MNum) {i : Nat} (h : i < s.cfg.slots) :
    s.peek (BitVec.ofNat 9 (0x100 + 64 * k.val + i)) = BitVec.ofNat 32 (elem (s.matrix k).e i).toNat := by
  rw [State.peek, decodeAddr_melem_at s.cfg k h, State.readReg, zext32_eq_ofNat]

end Peeks

/-! ### The bridge (20_memory.md R38, R39, R41) -/

section Bridge

variable {c : Config} {addr : Nat}

theorem bridgeWAddr_of_word (hbase : c.md26Base % 4 = 0) (a : WAddr) :
    bridgeWAddr c (c.md26Base + 4 * a.toNat) = some a := by
  have ha := a.isLt
  have hoff : (c.md26Base + 4 * a.toNat - c.md26Base) / 4 = a.toNat := by omega
  rw [bridgeWAddr, if_pos (by omega), hoff, BitVec.ofNat_toNat, BitVec.setWidth_eq]

/-- The bridge forwards nothing from a misaligned address, nor from one outside the window of 2048 bytes. -/
theorem bridgeWAddr_eq_none (h : addr % 4 ≠ 0 ∨ addr < c.md26Base ∨ c.md26Base + 2048 ≤ addr) :
    bridgeWAddr c addr = none :=
  if_neg (by omega)

theorem bridge_read_eq_none {size : Nat}
    (h : addr % 4 ≠ 0 ∨ size ≠ 4 ∨ addr < c.md26Base ∨ c.md26Base + 2048 ≤ addr) :
    bridge c (.read addr size) = none := by
  rw [bridge]
  split
  next hsize =>
    rw [bridgeWAddr_eq_none (by omega), Option.map_none]
  next => rfl

theorem bridge_write_eq_none {bytes : List (BitVec 8)}
    (h : addr % 4 ≠ 0 ∨ bytes.length ≠ 4 ∨ addr < c.md26Base ∨ c.md26Base + 2048 ≤ addr) :
    bridge c (.write addr bytes) = none := by
  match bytes, h with
  | [_, _, _, _], h =>
    rw [bridge, bridgeWAddr_eq_none (by simpa using h), Option.map_none]
  | [], _ | [_], _ | [_, _], _ | [_, _, _], _ | _ :: _ :: _ :: _ :: _ :: _, _ => rfl

end Bridge

/-- The lanes of a word, put together again. -/
theorem lanesWord_byteLanes (w : Word) :
    lanesWord (w.extractLsb' 0 8) (w.extractLsb' 8 8) (w.extractLsb' 16 8) (w.extractLsb' 24 8) = w := by
  have hjoin : lanesWord (w.extractLsb' 0 8) (w.extractLsb' 8 8) (w.extractLsb' 16 8) (w.extractLsb' 24 8) =
      w.extractLsb' 0 32 := by
    rw [lanesWord, BitVec.extractLsb'_append_extractLsb'_eq_extractLsb' (rfl : 24 = 16 + 8),
      BitVec.extractLsb'_append_extractLsb'_eq_extractLsb' (rfl : 16 = 8 + 8),
      BitVec.extractLsb'_append_extractLsb'_eq_extractLsb' (rfl : 8 = 0 + 8)]
  rw [hjoin, BitVec.extractLsb'_eq_self]

theorem byteLane_toNat (w : Word) (k : Nat) : (byteLane w k).toNat = w.toNat / 256 ^ k % 256 := by
  rw [byteLane, BitVec.extractLsb'_toNat, Nat.shiftRight_eq_div_pow, Nat.pow_mul]

theorem busStep_of_bridge {s : State} {acc : BusAccess} {op : HostOp} (h : bridge s.cfg acc = some op) :
    s.busStep acc = s.hostStep op := by
  rw [State.busStep, h]

theorem busStep_of_bridge_none {s : State} {acc : BusAccess} (h : bridge s.cfg acc = none) : s.busStep acc = s := by
  rw [State.busStep, h]

theorem busStep_read_word (s : State) (a : WAddr) (hbase : s.cfg.md26Base % 4 = 0) :
    s.busStep (.read (s.cfg.md26Base + 4 * a.toNat) 4) = s.hostRead a := by
  have h : bridge s.cfg (.read (s.cfg.md26Base + 4 * a.toNat) 4) = some (.read a) := by
    rw [bridge, if_pos rfl, bridgeWAddr_of_word hbase, Option.map_some]
  rw [busStep_of_bridge h, State.hostStep]

theorem busStep_write_word (s : State) (a : WAddr) (w : Word) (hbase : s.cfg.md26Base % 4 = 0) :
    s.busStep (.write (s.cfg.md26Base + 4 * a.toNat)
      [w.extractLsb' 0 8, w.extractLsb' 8 8, w.extractLsb' 16 8, w.extractLsb' 24 8]) = s.hostWrite a w := by
  have h : bridge s.cfg (.write (s.cfg.md26Base + 4 * a.toNat)
      [w.extractLsb' 0 8, w.extractLsb' 8 8, w.extractLsb' 16 8, w.extractLsb' 24 8]) = some (.write a w) := by
    rw [bridge, bridgeWAddr_of_word hbase, Option.map_some, lanesWord_byteLanes]
  rw [busStep_of_bridge h, State.hostStep]

end Sys2Proof.Machine

namespace Sys2Proof.Claims

open Sys2Proof.Machine

/-- Settles O18: STATUS is stable, so a read returns its word, whose bits are its fields; and a write of it
looks at no other field of the state. -/
theorem statusRegister : Obligations.StatusRegister := by
  unfold Obligations.StatusRegister
  refine ⟨⟨rfl, rfl, rfl, rfl, rfl, rfl, rfl⟩, fun s w => ⟨?_, ?_⟩⟩
  · rw [hostRead_status_rdata, Status.word, statusBits_toNat]
  · rw [hostWrite_status, Status.written_eq]
    rfl

/-- Settles O21: while BUSY = 0 a write of an input is no overrun. -/
theorem idleInputWrites : Obligations.IdleInputWrites := by
  unfold Obligations.IdleInputWrites
  exact fun s w hb => ⟨hostWrite_operand_of_idle w hb, fun i hi => hostWrite_stage_of_idle w hb hi⟩

/-- Settles O24: a read is free exactly at a destination of the command in flight, and else takes the word that the
address's register holds. -/
theorem readsWhileBusy : Obligations.ReadsWhileBusy := by
  unfold Obligations.ReadsWhileBusy
  refine ⟨fun s a => ⟨fun hb hd => hostRead_of_unstable (unstable_iff_destination.mpr ⟨hb, hd⟩), fun h => ?_⟩,
    fun s => ⟨rfl, rfl, rfl, fun k => peek_mdim, fun i hi => peek_stage hi, fun j hj => peek_vecOut hj,
      fun k i hi => peek_melem k hi⟩⟩
  exact hostRead_of_stable (Bool.eq_false_iff.mpr fun hu => h (unstable_iff_destination.mp hu))

/-- Settles O25: an aligned address in the window has one word address, and the lanes of a word make up the word; the
bridge forwards nothing else. -/
theorem bridgeForwardsWholeWords : Obligations.BridgeForwardsWholeWords := by
  unfold Obligations.BridgeForwardsWholeWords
  exact ⟨fun s a w hbase => ⟨busStep_read_word s a hbase, busStep_write_word s a w hbase⟩,
    fun w k _ => byteLane_toNat w k,
    fun s addr size bytes => ⟨fun h => busStep_of_bridge_none (bridge_read_eq_none h),
      fun h => busStep_of_bridge_none (bridge_write_eq_none h)⟩⟩

end Sys2Proof.Claims
end

section
/-! PROOFS. What every commit leaves unchanged: the inputs, CTRL, OVR and the surroundings, and for each command every
word of the window but its destination's and STATUS (60_exceptions.md R144; 10_state.md R13, R15 to R18;
45_control.md R130). -/

namespace Sys2Proof.Machine

/-! ### The end of every command (60_exceptions.md R144) -/

/-- `s` with other results: the matrix registers, `SCALAR_OUT` and `VEC_OUT`. -/
def State.withResults (s : State) (m : Vector MReg 4) (w : Word) (v : List Word) : State :=
  { s with mreg := m, scalarOut := w, vecOut := v }

theorem exec_eq_commit (i : Instr) (s : State) : ∃ e m w v, exec i s = .next ((s.withResults m w v).commit e) := by
  rcases exec_cases i s with ⟨e, -, h⟩ | ⟨-, h⟩ | ⟨w, -, h⟩ | ⟨ms, j, v, -, h⟩ | ⟨md, m, -, h⟩
  · exact ⟨e, s.mreg, s.scalarOut, s.vecOut, h⟩
  · exact ⟨.ok, s.mreg, s.scalarOut, s.vecOut, h⟩
  · exact ⟨.ok, s.mreg, w, s.vecOut, h⟩
  · exact ⟨.ok, s.mreg, s.scalarOut, v, h⟩
  · exact ⟨.ok, s.mreg.set md.val m, s.scalarOut, s.vecOut, h⟩

/-- A commit, of a legal word or not, writes results and STATUS alone. -/
theorem commitStep_eq_commit (s : State) :
    ∃ e m w v, commitStep s = .next ((s.withResults m w v).commit e) := by
  rcases commitStep_cases s with ⟨i, -, hi⟩ | ⟨r, -, hr⟩
  · rw [hi]
    exact exec_eq_commit i s
  · exact ⟨.illegal, s.mreg, s.scalarOut, s.vecOut, hr⟩

theorem eq_commit_of_commitStep {s t : State} (h : commitStep s = .next t) :
    ∃ e m w v, t = (s.withResults m w v).commit e := by
  obtain ⟨e, m, w, v, h'⟩ := commitStep_eq_commit s
  exact ⟨e, m, w, v, Host.Outcome.next.inj (h.symm.trans h')⟩

/-! ### What each kind of command can do -/

section Kinds

variable (s : State)

theorem exec_scalar_cases {i : Instr} (hi : i = .norm ∨ i = .rinv ∨ (∃ ms, i = .det ms) ∨ ∃ ms, i = .dim ms) :
    (∃ e, e ≠ .ok ∧ exec i s = failWith e s) ∨ ∃ w, exec i s = succeed (s.setScalarOut w) := by
  rcases hi with rfl | rfl | ⟨ms, rfl⟩ | ⟨ms, rfl⟩
  · simpa using exec_cases .norm s
  · simpa using exec_cases .rinv s
  · simpa using exec_cases (.det ms) s
  · simpa using exec_cases (.dim ms) s

theorem exec_matrix_cases {i : Instr} {md : MNum} (hi : (∃ len, i = .build md len) ∨ ∃ ms, i = .inv md ms) :
    (∃ e, e ≠ .ok ∧ exec i s = failWith e s) ∨ ∃ m, exec i s = succeed (s.setMatrix md m) := by
  rcases hi with ⟨len, rfl⟩ | ⟨ms, rfl⟩
  · simpa using exec_cases (.build md len) s
  · simpa using exec_cases (.inv md ms) s

theorem exec_col_cases (ms : MNum) (j : Nat) :
    (∃ e, e ≠ .ok ∧ exec (.col ms j) s = failWith e s) ∨ ∃ v, exec (.col ms j) s = succeed (s.setVecOut v) := by
  simpa using exec_cases (.col ms j) s

end Kinds

/-- BUILD and INV have the one destination `MREG[md]`. -/
theorem mayWrite_matrix_iff {i : Instr} {md : MNum} (hi : (∃ len, i = .build md len) ∨ ∃ ms, i = .inv md ms) {r : Reg} :
    Instr.mayWrite i r = true ↔ r = .mdim md ∨ ∃ j, r = .melem md j := by
  rcases hi with ⟨len, rfl⟩ | ⟨ms, rfl⟩
  · exact mayWrite_build_iff
  · exact mayWrite_inv_iff

/-! ### Reads after each update -/

section ReadsAfterUpdates

variable {s : State} {r : Reg}

theorem readReg_commit (e : ErrCode) (h : r ≠ .status) : (s.commit e).readReg r = s.readReg r := by
  cases r with
  | status => exact absurd rfl h
  | _ => rfl

theorem readReg_setScalarOut (w : Word) (h : r ≠ .scalarOut) : (s.setScalarOut w).readReg r = s.readReg r := by
  cases r with
  | scalarOut => exact absurd rfl h
  | _ => rfl

theorem readReg_setVecOut (v : List Word) (h : ¬∃ j, r = .vecOut j) : (s.setVecOut v).readReg r = s.readReg r := by
  cases r with
  | vecOut j => exact absurd ⟨j, rfl⟩ h
  | _ => rfl

theorem readReg_setMatrix (md : MNum) (m : MReg) (h : ¬(r = .mdim md ∨ ∃ i, r = .melem md i)) :
    (s.setMatrix md m).readReg r = s.readReg r := by
  cases r with
  | mdim k =>
    have hk : k ≠ md := by rintro rfl; exact h (.inl rfl)
    rw [State.readReg, State.readReg, State.matrix_setMatrix, if_neg hk]
  | melem k i =>
    have hk : k ≠ md := by rintro rfl; exact h (.inr ⟨i, rfl⟩)
    rw [State.readReg, State.readReg, State.matrix_setMatrix, if_neg hk]
  | _ => rfl

end ReadsAfterUpdates

/-! ### Frames (10_state.md R13, R17, R18) -/

section Frames

variable {i : Instr} {s t : State}

/-- A command leaves every register that it may not write, but for STATUS. -/
theorem readReg_eq_of_not_mayWrite (h : exec i s = .next t) {r : Reg} (hst : r ≠ .status)
    (hw : ¬Instr.mayWrite i r = true) : t.readReg r = s.readReg r := by
  rcases exec_cases i s with ⟨e, -, h'⟩ | ⟨-, h'⟩ | ⟨w, hi, h'⟩ | ⟨ms, j, v, rfl, h'⟩ | ⟨md, m, hi, h'⟩ <;>
    obtain rfl := Host.Outcome.next.inj (h.symm.trans h') <;> rw [readReg_commit _ hst]
  · exact readReg_setScalarOut w (mt (mayWrite_scalar_iff hi).mpr hw)
  · exact readReg_setVecOut v (mt mayWrite_col_iff.mpr hw)
  · exact readReg_setMatrix md m (mt (mayWrite_matrix_iff hi).mpr hw)

/-- So every word of the window outside its destinations reads as before. -/
theorem peek_eq_of_not_mayWrite (h : exec i s = .next t) {a : WAddr} (hst : a ≠ 0x003)
    (hw : ¬Instr.mayWrite i (decodeAddr s.cfg a) = true) : t.peek a = s.peek a := by
  have hcfg : t.cfg = s.cfg := by
    obtain ⟨e, m, w, v, h'⟩ := exec_eq_commit i s
    rw [Host.Outcome.next.inj (h.symm.trans h'), State.commit_cfg, State.withResults]
  rw [State.peek, State.peek, hcfg]
  exact readReg_eq_of_not_mayWrite h (mt decodeAddr_status.mp hst) hw

end Frames

end Sys2Proof.Machine

namespace Sys2Proof.Claims

open Sys2Proof.Machine

/-- Settles O12: every command ends in a commit over the state with other results, and a commit writes STATUS alone. -/
theorem commitEndsEveryCommand : Obligations.CommitEndsEveryCommand := by
  unfold Obligations.CommitEndsEveryCommand
  intro i s
  obtain ⟨e, m, w, v, h⟩ := exec_eq_commit i s
  exact ⟨_, h, rfl, rfl, rfl, rfl, rfl, rfl, rfl, rfl, rfl, rfl, rfl⟩

/-- Settles O47: these four commands may write `SCALAR_OUT`, at the address 0x006, and nothing else. -/
theorem scalarCommandsFrame : Obligations.ScalarCommandsFrame := by
  unfold Obligations.ScalarCommandsFrame
  intro s t ms i hi h
  have hi : i = .norm ∨ i = .rinv ∨ (∃ ms, i = .det ms) ∨ ∃ ms, i = .dim ms := by
    rcases hi with rfl | rfl | rfl | rfl <;> simp
  refine ⟨?_, fun a hst ha => peek_eq_of_not_mayWrite h hst ?_⟩
  · rcases exec_scalar_cases s hi with ⟨e, -, h'⟩ | ⟨w, h'⟩ <;>
      rw [Host.Outcome.next.inj (h.symm.trans h')] <;> rfl
  · rw [mayWrite_scalar_iff hi, decodeAddr_scalarOut]
    exact ha

/-- Settles O48: BUILD and INV may write the words of their destination register, which lie in its `MDIM` word and its
matrix window, and nothing else. -/
theorem matrixCommandsFrame : Obligations.MatrixCommandsFrame := by
  unfold Obligations.MatrixCommandsFrame
  intro s t md ms len i hi h
  have hslots := slots_le_64 s.cfg
  have hi : (∃ len, i = .build md len) ∨ ∃ ms, i = .inv md ms := hi.imp (⟨len, ·⟩) (⟨ms, ·⟩)
  refine and_assoc.mp ⟨?_, fun a hst hdim helem => peek_eq_of_not_mayWrite h hst ?_⟩
  · rcases exec_matrix_cases s hi with ⟨e, -, h'⟩ | ⟨m, h'⟩ <;>
      obtain rfl := Host.Outcome.next.inj (h.symm.trans h')
    · exact ⟨rfl, fun k hk => rfl⟩
    · refine ⟨rfl, fun k hk => ?_⟩
      rw [State.matrix_commit, State.matrix_setMatrix, if_neg hk]
  · rw [mayWrite_matrix_iff hi, decodeAddr_eq_mdim_iff, exists_decodeAddr_eq_melem_iff]
    omega

/-- Settles O49: COL may write the words of `VEC_OUT`, at most eight, and NOP none. -/
theorem colAndNopFrame : Obligations.ColAndNopFrame := by
  unfold Obligations.ColAndNopFrame
  refine fun s t => ⟨fun ms j h => ⟨?_, fun a hst ha => peek_eq_of_not_mayWrite h hst ?_⟩,
    fun h a hst => peek_eq_of_not_mayWrite h hst Bool.false_ne_true⟩
  · rcases exec_col_cases s ms j with ⟨e, -, h'⟩ | ⟨v, h'⟩ <;>
      rw [Host.Outcome.next.inj (h.symm.trans h')] <;> rfl
  · have hn := s.cfg.nMax_le
    rw [mayWrite_col_iff, exists_decodeAddr_eq_vecOut_iff]
    omega

/-- Settles O41: 5 lies between the squares of 2 and 3, so BUILD of 5 words fails its perfect square check. -/
theorem buildOfFiveIsRejected : Obligations.BuildOfFiveIsRejected := by
  unfold Obligations.BuildOfFiveIsRejected
  have hsq (n : Nat) : n * n ≠ 5 := by
    rcases Nat.lt_or_ge n 3 with h | h
    · interval_cases n <;> decide
    · nlinarith
  refine ⟨by decide, fun s md => ?_⟩
  rw [exec_build_of_not_square hsq, failWith_eq]

end Sys2Proof.Claims
end

section
/-! PROOFS. The invariant of MD26's state: it holds after reset, each update of the state keeps it, and so does every
step (10_state.md R11 to R18, R20; 60_exceptions.md R143). -/

namespace Sys2Proof.Machine

/-! ### Matrix registers (10_state.md R11, R12, R14) -/

section MatrixRegisters

variable {c : Config}

theorem MReg.ok_cleared (c : Config) : (MReg.cleared c).Ok c where
  dim_le := Nat.zero_le _
  length_eq := List.length_replicate
  residues i := by rw [MReg.cleared_e, elem_replicate]; decide
  padding i _ := by rw [MReg.cleared_e, elem_replicate]

/-- A padded list of `n²` residues is the content of a matrix register of dimension `n`. -/
theorem MReg.ok_padTo {n : Nat} {l : List Residue} (hn : n ≤ c.nMax) (hlen : l.length = n * n)
    (hl : ∀ r ∈ l, r.toNat < 26) : MReg.Ok c { dim := n, e := padTo c.slots l } where
  dim_le := hn
  length_eq := length_padTo (hlen.trans_le (Nat.mul_le_mul hn hn))
  residues i := by
    rw [elem_padTo]
    by_cases hi : i < l.length
    · have hmem : elem l i ∈ l := by
        rw [elem, List.getD_eq_getElem _ _ hi]
        exact List.getElem_mem hi
      exact hl _ hmem
    · rw [elem_of_length_le (Nat.le_of_not_lt hi)]
      decide
  padding i hi := by rw [elem_padTo, elem_of_length_le (hlen.trans_le hi)]

/-- The entries that INV writes: their number and their range, at every dimension (43_inverse.md R102 to R105). -/
theorem length_inverseEntries {n : Nat} (hn : n ≠ 0) (e : List Residue) (d : Residue) :
    (inverseEntries n e d).length = n * n := by
  rw [Claims.inverseEntries_eq hn, List.length_map, List.length_range]

theorem inverseEntry_lt {d : Residue} (hd : d.toNat < 26) (n : Nat) (e : List Residue) (i : Nat) :
    (Claims.inverseEntry n e d i).toNat < 26 := by
  unfold Claims.inverseEntry
  split_ifs
  · exact hd
  all_goals exact normalize26_lt _

/-- The content that INV writes of a register (43_inverse.md R106). -/
def inverseReg (c : Config) (m : MReg) : MReg :=
  { dim := m.dim, e := padTo c.slots (inverseEntries m.dim m.e (detInverse m.dim m.e)) }

theorem MReg.ok_inverseReg {m : MReg} (hm : m.Ok c) (h0 : m.dim ≠ 0) : (inverseReg c m).Ok c := by
  refine MReg.ok_padTo hm.dim_le (length_inverseEntries h0 _ _) fun r hr => ?_
  rw [Claims.inverseEntries_eq h0, List.mem_map] at hr
  obtain ⟨i, -, rfl⟩ := hr
  exact inverseEntry_lt (invTab_lt _) _ _ _

end MatrixRegisters

/-! ### The updates that keep the invariant -/

namespace State.Inv

variable {s : State} (h : s.Inv)
include h

theorem setStatus {t : Status} (ht : t.busy = true → t.done = false) : (s.setStatus t).Inv :=
  { h with busy_not_done := ht }

theorem setCtrl (c : Ctrl) : (s.setCtrl c).Inv := { h with }

theorem setOperand (w : Word) : (s.setOperand w).Inv := { h with }

theorem setStage (i : Nat) (w : Word) : (s.setStage i w).Inv :=
  { h with stage_length := (List.length_set ..).trans h.stage_length }

theorem withAgenda (l : List Event) : (s.withAgenda l).Inv := { h with }

theorem withPort (x : Word) (d : Nat) : (s.withPort x d).Inv := { h with }

theorem accept (w : Word) : (s.accept w).Inv := { h with busy_not_done := fun _ => rfl }

theorem overrun : s.overrun.Inv := h.setStatus h.busy_not_done

theorem commit (e : ErrCode) : (s.commit e).Inv := h.setStatus fun hb => absurd hb Bool.false_ne_true

theorem setScalarOut {w : Word} (hw : w.toNat < 26) : (s.setScalarOut w).Inv := { h with scalarOut_lt := hw }

theorem setVecOut {v : List Word} (hlen : v.length = s.cfg.nMax) (hv : ∀ j, (v.getD j 0).toNat < 26) :
    (s.setVecOut v).Inv :=
  { h with vecOut_length := hlen, vecOut_lt := hv }

theorem setMatrix (md : MNum) {m : MReg} (hm : m.Ok s.cfg) : (s.setMatrix md m).Inv :=
  { h with
    matrices := fun k => by
      rw [State.matrix_setMatrix]
      split
      · exact hm
      · exact h.matrices k }

end State.Inv

theorem inv_resetWith (c : Config) : (State.resetWith c).Inv where
  matrices k := by
    have hk : (State.resetWith c).matrix k = MReg.cleared c := Vector.getElem_replicate _
    rw [hk]
    exact MReg.ok_cleared c
  stage_length := List.length_replicate
  vecOut_length := List.length_replicate
  scalarOut_lt := Nat.zero_lt_succ _
  vecOut_lt j := by
    have hj : (State.resetWith c).vecOut.getD j 0 = 0 := List.getElem?_getD_replicate_default_eq _ c.nMax j
    rw [hj]
    decide
  busy_not_done := nofun

theorem inv_resetStep (s : State) : s.resetStep.Inv := { inv_resetWith s.cfg with }

/-- The words of a column are residues and zeros. -/
theorem columnWords_lt {c : Config} {m : MReg} (hm : m.Ok c) (j k : Nat) :
    ((columnWords c m j).getD k 0).toNat < 26 := by
  by_cases hk : k < (columnWords c m j).length
  · rw [List.getD_eq_getElem _ _ hk]
    simp only [columnWords, List.getElem_map, List.getElem_range]
    split
    · rw [zext32_toNat]
      exact hm.residues _
    · decide
  · rw [List.getD_eq_default _ _ (Nat.le_of_not_lt hk)]
    decide

namespace State.Inv

variable {s : State} (h : s.Inv)
include h

/-! ### The commands (60_exceptions.md R144) -/

theorem setScalarOut_ofNat {n : Nat} (hn : n < 26) : (s.setScalarOut (BitVec.ofNat 32 n)).Inv :=
  h.setScalarOut (by rw [BitVec.toNat_ofNat]; omega)

theorem exec_build (md : MNum) (len : Nat) : ∃ e u, u.Inv ∧ exec (.build md len) s = .next (State.commit e u) := by
  by_cases hsq : ∃ n, n * n = len
  · obtain ⟨n, rfl⟩ := hsq
    by_cases hn : n = 0 ∨ s.cfg.nMax < n
    · exact ⟨.dimension, s, h, exec_build_of_bad_dimension hn⟩
    · obtain ⟨hpos, hle⟩ : 1 ≤ n ∧ n ≤ s.cfg.nMax := by omega
      refine ⟨.ok, _, h.setMatrix md (MReg.ok_padTo hle ?_ fun r hr => ?_), exec_build_of_square hpos hle⟩
      · rw [List.length_map, length_stageInts]
      · obtain ⟨x, -, rfl⟩ := List.mem_map.mp hr
        exact normalize26_lt x
  · exact ⟨.shape, s, h, exec_build_of_not_square (not_exists.mp hsq)⟩

theorem exec_det (ms : MNum) : ∃ e u, u.Inv ∧ exec (.det ms) s = .next (State.commit e u) := by
  by_cases h0 : (s.matrix ms).dim = 0
  · exact ⟨.empty, s, h, exec_det_of_dim_eq_zero h0⟩
  · exact ⟨.ok, _, h.setScalarOut_ofNat (det_lt _ (h.matrices ms).residues), exec_det_of_dim_ne_zero h0⟩

theorem exec_inv (md ms : MNum) : ∃ e u, u.Inv ∧ exec (.inv md ms) s = .next (State.commit e u) := by
  by_cases h0 : (s.matrix ms).dim = 0
  · exact ⟨.empty, s, h, exec_inv_of_dim_eq_zero h0⟩
  · by_cases hd : detInverse (s.matrix ms).dim (s.matrix ms).e = 0
    · exact ⟨.singular, s, h, exec_inv_of_detInverse_eq_zero h0 hd⟩
    · exact ⟨.ok, _, h.setMatrix md (MReg.ok_inverseReg (h.matrices ms) h0), exec_inv_of_detInverse_ne_zero h0 hd⟩

theorem exec_col (ms : MNum) (j : Nat) : ∃ e u, u.Inv ∧ exec (.col ms j) s = .next (State.commit e u) := by
  by_cases h0 : (s.matrix ms).dim = 0
  · exact ⟨.empty, s, h, exec_col_of_dim_eq_zero h0⟩
  · by_cases hj : (s.matrix ms).dim ≤ j
    · exact ⟨.index, s, h, exec_col_of_le h0 hj⟩
    · have hlen : (columnWords s.cfg (s.matrix ms) j).length = s.cfg.nMax := by
        rw [columnWords, List.length_map, List.length_range]
      exact ⟨.ok, _, h.setVecOut hlen (columnWords_lt (h.matrices ms) j), exec_col_of_lt (Nat.not_le.mp hj)⟩

theorem exec_dim (ms : MNum) : ∃ e u, u.Inv ∧ exec (.dim ms) s = .next (State.commit e u) := by
  by_cases h0 : (s.matrix ms).dim = 0
  · exact ⟨.empty, s, h, exec_dim_of_dim_eq_zero h0⟩
  · have hle := (h.matrices ms).dim_le
    have hn := s.cfg.nMax_le
    exact ⟨.ok, _, h.setScalarOut_ofNat (by omega), exec_dim_of_dim_ne_zero h0⟩

/-- Every command commits over a state that meets the invariant. -/
theorem exec (i : Instr) : ∃ e u, u.Inv ∧ exec i s = .next (State.commit e u) := by
  cases i with
  | nop => exact ⟨.ok, s, h, rfl⟩
  | norm => exact ⟨.ok, _, h.setScalarOut_ofNat (normalize26_toNat _ ▸ normalize26_lt _), Machine.exec_norm s⟩
  | rinv => exact ⟨.ok, _, h.setScalarOut_ofNat (invTab_lt _), Machine.exec_rinv s⟩
  | build md len => exact h.exec_build md len
  | det ms => exact h.exec_det ms
  | inv md ms => exact h.exec_inv md ms
  | col ms j => exact h.exec_col ms j
  | dim ms => exact h.exec_dim ms

theorem commitStep {t : State} (ht : commitStep s = .next t) : t.Inv := by
  obtain ⟨e, u, hu, hc⟩ : ∃ e u, u.Inv ∧ Machine.commitStep s = .next (State.commit e u) := by
    rcases commitStep_cases s with ⟨i, -, hi⟩ | ⟨r, -, hr⟩
    · rw [hi]
      exact h.exec i
    · exact ⟨.illegal, s, h, hr⟩
  rw [Host.Outcome.next.inj (ht.symm.trans hc)]
  exact hu.commit e

/-! ### The port -/

theorem hostWrite (a : WAddr) (w : Word) : (s.hostWrite a w).Inv := by
  rcases hostWrite_cases a w s with h' | ⟨-, h'⟩ | ⟨-, h'⟩ | ⟨-, h'⟩ | ⟨-, -, h'⟩ | ⟨-, -, h'⟩ | ⟨-, i, -, h'⟩ <;>
    rw [h']
  · exact h
  · exact h.setCtrl _
  · refine h.setStatus fun hb => ?_
    rw [Status.written_done, h.busy_not_done hb, Bool.false_and]
  · exact h.overrun
  · exact h.accept w
  · exact h.setOperand w
  · exact h.setStage i w

theorem hostStep (op : HostOp) : (s.hostStep op).Inv := by
  cases op with
  | read a =>
    rw [State.hostStep, hostRead_eq_withPort]
    exact h.withPort _ _
  | write a w => exact h.hostWrite a w

theorem busStep (acc : BusAccess) : (s.busStep acc).Inv := by
  rcases busStep_cases acc s with ⟨-, h'⟩ | ⟨op, -, h'⟩ <;> rw [h']
  · exact h
  · exact h.hostStep op

theorem step {t : State} (ht : step s = .next t) : t.Inv := by
  have hp : s.popped.Inv := h.withAgenda _
  rcases step_cases s with ⟨op, rest, -, h'⟩ | ⟨acc, rest, -, h'⟩ | ⟨rest, -, h'⟩ | ⟨-, -, h'⟩ | ⟨-, -, h'⟩
  · rw [Host.Outcome.next.inj (ht.symm.trans h')]
    exact hp.hostStep op
  · rw [Host.Outcome.next.inj (ht.symm.trans h')]
    exact hp.busStep acc
  · rw [Host.Outcome.next.inj (ht.symm.trans h')]
    exact inv_resetStep _
  · exact hp.commitStep (h'.symm.trans ht)
  · rw [Host.Outcome.next.inj (ht.symm.trans h')]
    exact hp

end State.Inv

end Sys2Proof.Machine

namespace Sys2Proof.Claims

open Sys2Proof.Machine

/-- Settles O27: every register is cleared to the lengths of its configuration. -/
theorem resetMeetsInvariant : Obligations.ResetMeetsInvariant := by
  unfold Obligations.ResetMeetsInvariant
  exact inv_resetWith

/-- Settles O28: the port's writes, a reset and the commit of each command keep the invariant, and a step is one of
them. -/
theorem everyStepKeepsInvariant : Obligations.EveryStepKeepsInvariant := by
  unfold Obligations.EveryStepKeepsInvariant
  exact fun s t h => h.step

end Sys2Proof.Claims
end

section
/-! PROOFS. The machine as a whole: which agent takes a step, what each step can change, and where a run ends
(10_state.md R10, R13, R26, R28; 60_exceptions.md R143 to R157; 70_reset_and_hazards.md R170 to R177). -/

namespace Sys2Proof.Machine

open Sys2Proof.Claims

section Agents

variable {s : State}

/-! ### One step, by the next entry of the agenda (notes/assumptions/3.md) -/

theorem step_of_agenda_cons {ev : Event} {rest : List Event} (h : s.agenda = ev :: rest) :
    step s = eventStep ev (s.withAgenda rest) := by
  rw [step, h]

theorem step_of_agenda_nil (h : s.agenda = []) : step s = engineStep s := by
  rw [step, h]

theorem engineStep_of_busy (hb : s.status.busy = true) : engineStep s = commitStep s := if_pos hb

theorem engineStep_of_idle (hb : s.status.busy = false) : engineStep s = .next s := if_neg (Bool.eq_false_iff.mp hb)

theorem commitStep_of_ok {i : Instr} (h : decodeCmd s.cmd = .ok i) : commitStep s = exec i s := by
  rw [commitStep, h]

theorem commitStep_of_error {r : Illegal} (h : decodeCmd s.cmd = .error r) : commitStep s = failWith .illegal s := by
  rw [commitStep, h]

theorem step_of_engineTurn {rest : List Event} (h : s.agenda = .engine :: rest) (hb : s.status.busy = true) :
    step s = commitStep (s.withAgenda rest) :=
  (step_of_agenda_cons h).trans (engineStep_of_busy (s := s.withAgenda rest) hb)

/-- A word placed for the next step is committed in it (notes/assumptions/7.md). -/
theorem step_withFetchWord (s : State) (w : Word) : step (s.withFetchWord 32 w.toNat) = commitStep (s.accept w) := by
  have hw : BitVec.ofNat 32 (w.toNat % 2 ^ 32) = w := by
    rw [Nat.mod_eq_of_lt w.isLt, BitVec.ofNat_toNat, BitVec.setWidth_eq]
  rw [State.withFetchWord, hw]
  rfl

/-- What a step can do: a host transaction at the port, a reset, a commit, or nothing but to take an entry off the
agenda. -/
theorem step_next_cases {t : State} (h : step s = .next t) :
    (∃ op, nextOp s = some op ∧ t = s.popped.hostStep op) ∨ (resetIsNext s ∧ t = s.popped.resetStep) ∨
    (commitIsNext s ∧ commitStep s.popped = .next t) ∨ t = s.popped := by
  rcases step_cases s with ⟨op, rest, ha, h'⟩ | ⟨acc, rest, ha, h'⟩ | ⟨rest, ha, h'⟩ | ⟨ha, hb, h'⟩ | ⟨-, -, h'⟩
  · exact .inl ⟨op, by rw [nextOp, ha], Host.Outcome.next.inj (h.symm.trans h')⟩
  · obtain rfl := Host.Outcome.next.inj (h.symm.trans h')
    rcases busStep_cases acc s.popped with ⟨-, hs⟩ | ⟨op, hop, hs⟩
    · exact .inr (.inr (.inr hs))
    · exact .inl ⟨op, by rw [nextOp, ha]; exact hop, hs⟩
  · exact .inr (.inl ⟨⟨rest, ha⟩, Host.Outcome.next.inj (h.symm.trans h')⟩)
  · exact .inr (.inr (.inl ⟨⟨hb, ha⟩, h'.symm.trans h⟩))
  · exact .inr (.inr (.inr (Host.Outcome.next.inj (h.symm.trans h'))))

end Agents

/-! ### What a host transaction can do (20_memory.md R31, R35, R36) -/

theorem hostStep_cases (op : HostOp) (s : State) :
    (∃ x d, s.hostStep op = s.withPort x d) ∨
    (∃ w, op = .write 0x002 w ∧ s.hostStep op = s.setCtrl (Ctrl.written w)) ∨
    (∃ w, s.hostStep op = s.setStatus (s.status.written w)) ∨
    (s.status.busy = true ∧ s.hostStep op = s.overrun) ∨
    (s.status.busy = false ∧ ∃ w, op = .write 0x004 w ∧ s.hostStep op = s.accept w) ∨
    (s.status.busy = false ∧ ∃ w, s.hostStep op = s.setOperand w) ∨
    (s.status.busy = false ∧ ∃ i w, s.hostStep op = s.setStage i w) := by
  cases op with
  | read a => exact .inl ⟨_, _, hostRead_eq_withPort s a⟩
  | write a w =>
    rw [State.hostStep]
    rcases hostWrite_cases a w s with h | ⟨ha, h⟩ | ⟨-, h⟩ | ⟨hb, h⟩ | ⟨hb, ha, h⟩ | ⟨hb, -, h⟩ | ⟨hb, i, -, h⟩
    · exact .inl ⟨s.rdata, s.draws, h⟩
    · exact .inr (.inl ⟨w, by rw [decodeAddr_ctrl.mp ha], h⟩)
    · exact .inr (.inr (.inl ⟨w, h⟩))
    · exact .inr (.inr (.inr (.inl ⟨hb, h⟩)))
    · exact .inr (.inr (.inr (.inr (.inl ⟨hb, w, by rw [decodeAddr_cmd.mp ha], h⟩))))
    · exact .inr (.inr (.inr (.inr (.inr (.inl ⟨hb, w, h⟩)))))
    · exact .inr (.inr (.inr (.inr (.inr (.inr ⟨hb, i, w, h⟩)))))

section Steps

variable {s t : State}

/-- A host transaction leaves the matrix registers and the agenda. -/
theorem hostStep_mreg_agenda (op : HostOp) (s : State) :
    (s.hostStep op).mreg = s.mreg ∧ (s.hostStep op).agenda = s.agenda := by
  rcases hostStep_cases op s with ⟨x, d, h⟩ | ⟨w, -, h⟩ | ⟨w, h⟩ | ⟨-, h⟩ | ⟨-, w, -, h⟩ | ⟨-, w, h⟩ | ⟨-, i, w, h⟩ <;>
    rw [h] <;> exact ⟨rfl, rfl⟩

/-- While BUSY = 1 a host transaction changes neither BUSY nor the inputs. -/
theorem hostStep_of_busy (op : HostOp) (hb : s.status.busy = true) :
    (s.hostStep op).status.busy = true ∧ (s.hostStep op).cmd = s.cmd ∧ (s.hostStep op).operand = s.operand ∧
      (s.hostStep op).stage = s.stage := by
  have hidle : s.status.busy ≠ false := by simp [hb]
  rcases hostStep_cases op s with ⟨x, d, h⟩ | ⟨w, -, h⟩ | ⟨w, h⟩ | ⟨-, h⟩ | ⟨h, -⟩ | ⟨h, -⟩ | ⟨h, -⟩
  case inr.inr.inr.inr.inl => exact absurd h hidle
  case inr.inr.inr.inr.inr.inl => exact absurd h hidle
  case inr.inr.inr.inr.inr.inr => exact absurd h hidle
  all_goals
    rw [h]
    exact ⟨hb, rfl, rfl, rfl⟩

/-- BUSY rises in a host transaction only at an accept. -/
theorem eq_write_cmd_of_hostStep_busy {op : HostOp} (hb : s.status.busy = false)
    (ht : (s.hostStep op).status.busy = true) : ∃ w, op = .write 0x004 w ∧ (s.hostStep op).cmd = w := by
  rcases hostStep_cases op s with ⟨x, d, h⟩ | ⟨w, -, h⟩ | ⟨w, h⟩ | ⟨-, h⟩ | ⟨-, w, hop, h⟩ | ⟨-, w, h⟩ |
    ⟨-, i, w, h⟩ <;> rw [h] at ht ⊢
  case inr.inr.inr.inr.inl => exact ⟨w, hop, rfl⟩
  all_goals exact absurd (hb.symm.trans ht) Bool.false_ne_true

/-- `irq` rises in a host transaction only where it writes 1 to IE. -/
theorem eq_write_ctrl_of_hostStep_irq {op : HostOp} (h0 : s.irq = false) (ht : (s.hostStep op).irq = true) :
    ∃ w, op = .write 0x002 w ∧ w.getLsbD 0 = true := by
  rcases hostStep_cases op s with ⟨x, d, h⟩ | ⟨w, hop, h⟩ | ⟨w, h⟩ | ⟨-, h⟩ | ⟨-, w, -, h⟩ | ⟨-, w, h⟩ |
    ⟨-, i, w, h⟩ <;> rw [h] at ht
  case inr.inl => exact ⟨w, hop, Bool.and_elim_right ht⟩
  case inr.inr.inl =>
    rw [State.irq, Bool.and_eq_true, State.setStatus_status, Status.written_done, Bool.and_eq_true] at ht
    obtain ⟨⟨hdone, -⟩, hie⟩ := ht
    rw [State.irq, hdone, Bool.true_and] at h0
    exact absurd (h0.symm.trans hie) Bool.false_ne_true
  case inr.inr.inr.inr.inl => exact absurd ht Bool.false_ne_true
  all_goals exact absurd (h0.symm.trans ht) Bool.false_ne_true

/-- A commit ends with no command in flight, on the inputs and the agenda that it found. -/
theorem commitStep_ends (h : commitStep s = .next t) : t.status.busy = false ∧ t.agenda = s.agenda := by
  obtain ⟨e, m, w, v, rfl⟩ := eq_commit_of_commitStep h
  exact ⟨rfl, rfl⟩

/-- A commit changes a matrix register only as the destination of a BUILD or an INV (10_state.md R13). -/
theorem decodeCmd_of_commitStep_matrix_ne {k : MNum} (h : commitStep s = .next t) (hk : t.matrix k ≠ s.matrix k) :
    (∃ len, decodeCmd s.cmd = .ok (.build k len)) ∨ ∃ ms, decodeCmd s.cmd = .ok (.inv k ms) := by
  rcases commitStep_cases s with ⟨i, hd, hi⟩ | ⟨r, -, hr⟩
  · rcases exec_cases i s with ⟨e, -, h'⟩ | ⟨-, h'⟩ | ⟨w, -, h'⟩ | ⟨ms, j, v, -, h'⟩ | ⟨md, m, hdest, h'⟩ <;>
      obtain rfl := Host.Outcome.next.inj (h.symm.trans (hi.trans h'))
    case inr.inr.inr.inr =>
      have hmd : k = md := by
        by_contra hne
        rw [State.matrix_commit, State.matrix_setMatrix, if_neg hne] at hk
        exact hk rfl
      subst hmd
      rw [hd]
      simpa using hdest
    all_goals exact absurd rfl hk
  · obtain rfl := Host.Outcome.next.inj (h.symm.trans hr)
    exact absurd rfl hk

/-! ### The bits that drive `irq` (10_state.md R28) -/

theorem statusBits_done : ∀ (e : BitVec 4) (o d b : Bool),
    (0#24 ++ e ++ 0#1 ++ BitVec.ofBool o ++ BitVec.ofBool d ++ BitVec.ofBool b : Word).getLsbD 1 = d := by
  decide

theorem Status.word_bit_done (u : Status) : u.word.getLsbD 1 = u.done := statusBits_done _ _ _ _

theorem Ctrl.word_bit_ie (c : Ctrl) : c.word.getLsbD 0 = c.ie := by
  rcases c with ⟨_ | _⟩ <;> rfl

/-! ### Every step goes on (60_exceptions.md R146), and takes one entry off the agenda -/

theorem exists_step_eq_next (s : State) : ∃ t, step s = .next t := by
  rcases step_cases s with ⟨op, rest, -, h⟩ | ⟨acc, rest, -, h⟩ | ⟨rest, -, h⟩ | ⟨-, -, h⟩ | ⟨-, -, h⟩
  case inr.inr.inr.inl =>
    obtain ⟨e, m, w, v, h'⟩ := commitStep_eq_commit s.popped
    exact ⟨_, h.trans h'⟩
  all_goals exact ⟨_, h⟩

theorem agenda_of_step (h : step s = .next t) : t.agenda = s.agenda.tail := by
  rcases step_next_cases h with ⟨op, -, rfl⟩ | ⟨-, rfl⟩ | ⟨-, hc⟩ | rfl
  · exact (hostStep_mreg_agenda op s.popped).2
  · rfl
  · exact (commitStep_ends hc).2
  · rfl

/-- With an empty agenda a step ends the run (70_reset_and_hazards.md R171, R177). -/
theorem ended_of_step (ha : s.agenda = []) (h : step s = .next t) : t.ended = true := by
  have hbusy : t.status.busy = false := by
    rw [step_of_agenda_nil ha] at h
    cases hb : s.status.busy with
    | true => exact (commitStep_ends ((engineStep_of_busy hb).symm.trans h)).1
    | false => rwa [← Host.Outcome.next.inj ((engineStep_of_idle hb).symm.trans h)]
  rw [State.ended, agenda_of_step h, ha, hbusy]
  rfl

theorem runFor_succ {k : Nat} (h : step s = .next t) : runFor (k + 1) s = runFor k t := by
  rw [runFor, h]

theorem exists_runFor_ended (l : List Event) (s : State) (hs : s.agenda = l) :
    ∃ t, runFor (l.length + 1) s = .next t ∧ t.ended = true := by
  induction l generalizing s with
  | nil =>
    obtain ⟨t, ht⟩ := exists_step_eq_next s
    exact ⟨t, runFor_succ ht, ended_of_step hs ht⟩
  | cons ev rest ih =>
    obtain ⟨u, hu⟩ := exists_step_eq_next s
    obtain ⟨t, ht, hend⟩ := ih u (by rw [agenda_of_step hu, hs, List.tail_cons])
    exact ⟨t, (runFor_succ hu).trans ht, hend⟩

/-! ### The completion hazard (70_reset_and_hazards.md R170, R175) -/

theorem inStagingWindow_of_stage {c : Config} {a : WAddr} {i : Nat} (h : decodeAddr c a = .stage i) :
    inStagingWindow a = true := by
  obtain ⟨ha, hi⟩ := addressOf_decodeAddr (c := c) (a := a) (h ▸ nofun)
  rw [h] at ha hi
  have hslots := hi.trans_le (slots_le_64 c)
  rw [addressOf] at ha
  exact decide_eq_true (by omega)

/-- A write that is no input's is no overrun. -/
theorem hostWrite_of_not_input {a : WAddr} (w : Word) (h4 : a ≠ 0x004) (h5 : a ≠ 0x005)
    (hwin : inStagingWindow a = false) :
    s.hostWrite a w = s ∨ s.hostWrite a w = s.setCtrl (Ctrl.written w) ∨
      s.hostWrite a w = s.setStatus (s.status.written w) := by
  rw [State.hostWrite]
  cases hd : decodeAddr s.cfg a with
  | ctrl => exact .inr (.inl rfl)
  | status => exact .inr (.inr rfl)
  | cmd => exact absurd (decodeAddr_cmd.mp hd) h4
  | operand => exact absurd (decodeAddr_operand.mp hd) h5
  | stage i => exact absurd (hwin.symm.trans (inStagingWindow_of_stage hd)) Bool.false_ne_true
  | reserved => exact .inl (by rw [hwin, Bool.and_false]; rfl)
  | id | param | scalarOut | mdim _ | vecOut _ | melem _ _ => exact .inl rfl

/-- A host transaction that keeps the hazard's rule neither overruns nor draws a free value. -/
theorem hostStep_of_keepsHazard {op : HostOp} (h : keepsHazard s op = true) (h0 : s.status.ovr = false) :
    (s.hostStep op).status.ovr = false ∧ (s.hostStep op).draws = s.draws := by
  cases op with
  | read a =>
    have hstable : s.unstable (decodeAddr s.cfg a) = false := by simpa [keepsHazard] using h
    rw [State.hostStep, hostRead_of_stable hstable]
    exact ⟨h0, rfl⟩
  | write a w =>
    have hwritten : (s.status.written w).ovr = false := by rw [Status.written_ovr, h0, Bool.false_and]
    rw [State.hostStep]
    cases hb : s.status.busy with
    | true =>
      obtain ⟨⟨h4, h5⟩, hwin⟩ : (a ≠ 0x004 ∧ a ≠ 0x005) ∧ inStagingWindow a = false := by
        simpa [keepsHazard, hb] using h
      rcases hostWrite_of_not_input w h4 h5 hwin with h | h | h <;> rw [h]
      · exact ⟨h0, rfl⟩
      · exact ⟨h0, rfl⟩
      · exact ⟨hwritten, rfl⟩
    | false =>
      rcases hostWrite_cases a w s with h | ⟨-, h⟩ | ⟨-, h⟩ | ⟨h, -⟩ | ⟨-, -, h⟩ | ⟨-, -, h⟩ | ⟨-, i, -, h⟩
      case inr.inr.inl =>
        rw [h]
        exact ⟨hwritten, rfl⟩
      case inr.inr.inr.inl => exact absurd (hb.symm.trans h) Bool.false_ne_true
      all_goals
        rw [h]
        exact ⟨h0, rfl⟩

theorem keepsHazard_of_safeStep {op : HostOp} (h : s.safeStep = true) (hop : nextOp s = some op) :
    keepsHazard s op = true := by
  cases ha : s.agenda with
  | nil => rw [nextOp, ha] at hop; cases hop
  | cons ev rest =>
    rw [nextOp, ha] at hop
    rw [State.safeStep, ha] at h
    cases ev with
    | host op' =>
      obtain rfl := Option.some.inj hop
      exact h
    | bus acc =>
      simp only [hop] at h
      exact h
    | engine => cases hop
    | reset => cases hop

theorem safeStep_keeps (hsafe : s.safeStep = true) (h0 : s.status.ovr = false) (h : step s = .next t) :
    t.status.ovr = false ∧ t.draws = s.draws := by
  rcases step_next_cases h with ⟨op, hop, rfl⟩ | ⟨-, rfl⟩ | ⟨-, hc⟩ | rfl
  · have hkeeps := keepsHazard_of_safeStep hsafe hop
    exact hostStep_of_keepsHazard (s := s.popped) hkeeps h0
  · exact ⟨rfl, rfl⟩
  · obtain ⟨e, m, w, v, rfl⟩ := eq_commit_of_commitStep hc
    exact ⟨h0, rfl⟩
  · exact ⟨h0, rfl⟩

end Steps

theorem safeRun_keeps (k : Nat) {s t : State} (hsafe : SafeRun k s) (h0 : s.status.ovr = false)
    (h : runFor k s = .next t) : t.status.ovr = false ∧ t.draws = s.draws := by
  induction k generalizing s with
  | zero =>
    obtain rfl := Host.Outcome.next.inj h
    exact ⟨h0, rfl⟩
  | succ k ih =>
    obtain ⟨hstep, hrest⟩ := hsafe
    obtain ⟨u, hu⟩ := exists_step_eq_next s
    obtain ⟨hovr, hdraws⟩ := safeStep_keeps hstep h0 hu
    rw [← hdraws]
    exact ih (hrest u hu) hovr ((runFor_succ hu).symm.trans h)

end Sys2Proof.Machine

namespace Sys2Proof.Claims

open Sys2Proof.Machine

/-- Settles O9: with the engine's turn next, or with nothing left to come, a step of a busy MD26 is its commit. -/
theorem stepRunsDecodedCommand : Obligations.StepRunsDecodedCommand := by
  unfold Obligations.StepRunsDecodedCommand
  refine ⟨fun s i hb hd => ⟨fun rest ha => ?_, fun ha => ?_⟩, fun s w i hd => ?_⟩
  · exact (step_of_engineTurn ha hb).trans (commitStep_of_ok (s := s.withAgenda rest) hd)
  · rw [step_of_agenda_nil ha, engineStep_of_busy hb, commitStep_of_ok hd]
  · exact (step_withFetchWord s w).trans (commitStep_of_ok (s := s.accept w) hd)

/-- Settles O10: a step takes the first entry off the agenda and performs it. -/
theorem eachAgendaEntryIsOneStep : Obligations.EachAgendaEntryIsOneStep := by
  unfold Obligations.EachAgendaEntryIsOneStep
  exact fun s rest => ⟨fun a h => step_of_agenda_cons h, fun a w h => step_of_agenda_cons h,
    fun acc h => step_of_agenda_cons h, fun h => step_of_agenda_cons h⟩

/-- Settles O11: the commit of a word that does not decode is the failure ILLEGAL. -/
theorem illegalWordCommitsIllegal : Obligations.IllegalWordCommitsIllegal := by
  unfold Obligations.IllegalWordCommitsIllegal
  refine fun s r hb hd => ⟨fun rest ha => ?_, fun ha => ?_⟩
  · exact (step_of_engineTurn ha hb).trans (commitStep_of_error (s := s.withAgenda rest) hd)
  · rw [step_of_agenda_nil ha, engineStep_of_busy hb, commitStep_of_error hd, failWith_eq]

/-- Settles O31: the engine's step is not enabled while BUSY = 0. -/
theorem idleStateHolds : Obligations.IdleStateHolds := by
  unfold Obligations.IdleStateHolds
  refine fun s hb => ⟨fun ha => ?_, fun rest ha => ?_⟩
  · rw [step_of_agenda_nil ha, engineStep_of_idle hb]
  · exact (step_of_agenda_cons ha).trans (engineStep_of_idle (s := s.withAgenda rest) hb)

/-- Settles O34: a host step, a reset and an idle turn are total, and every commit goes on. -/
theorem everyStepGoesOn : Obligations.EveryStepGoesOn := by
  unfold Obligations.EveryStepGoesOn
  exact exists_step_eq_next

/-- Settles O29: no host transaction writes a matrix register, so the step is a reset, or a commit that names it. -/
theorem matrixChangesOnlyByBuildInvReset : Obligations.MatrixChangesOnlyByBuildInvReset := by
  unfold Obligations.MatrixChangesOnlyByBuildInvReset
  intro s t k h hk
  rcases step_next_cases h with ⟨op, -, rfl⟩ | ⟨hr, -⟩ | ⟨hc, hcommit⟩ | rfl
  · exact absurd (congrArg (·[k.val]) (hostStep_mreg_agenda op s.popped).1) hk
  · exact .inl hr
  · exact .inr ⟨hc, decodeCmd_of_commitStep_matrix_ne (s := s.popped) hcommit hk⟩
  · exact absurd rfl hk

/-- Settles O30: among the host transactions only an accept sets BUSY, and none clears it. -/
theorem busyChangesOnlyAtAcceptCommitReset : Obligations.BusyChangesOnlyAtAcceptCommitReset := by
  unfold Obligations.BusyChangesOnlyAtAcceptCommitReset
  intro s t h
  rcases step_next_cases h with ⟨op, hop, rfl⟩ | ⟨hr, rfl⟩ | ⟨hc, hcommit⟩ | rfl
  · refine ⟨fun hb ht => ?_, fun hb ht => ?_⟩
    · obtain ⟨w, rfl, hw⟩ := eq_write_cmd_of_hostStep_busy (s := s.popped) hb ht
      exact ⟨w, hop, hw⟩
    · obtain ⟨hbusy, -⟩ := hostStep_of_busy (s := s.popped) op hb
      exact absurd (ht.symm.trans hbusy) Bool.false_ne_true
  · exact ⟨fun _ ht => absurd ht Bool.false_ne_true, fun _ _ => .inr hr⟩
  · exact ⟨fun _ ht => absurd ((commitStep_ends hcommit).1.symm.trans ht) Bool.false_ne_true, fun _ _ => .inl hc⟩
  · exact ⟨fun hb ht => absurd (hb.symm.trans ht) Bool.false_ne_true,
      fun hb ht => absurd (ht.symm.trans hb) Bool.false_ne_true⟩

/-- Settles O32: while BUSY = 1 a host write of an input is an overrun, and a commit writes results alone. -/
theorem inputsHeldWhileBusy : Obligations.InputsHeldWhileBusy := by
  unfold Obligations.InputsHeldWhileBusy
  intro s t h hb hreset
  rcases step_next_cases h with ⟨op, -, rfl⟩ | ⟨hr, -⟩ | ⟨-, hcommit⟩ | rfl
  · exact (hostStep_of_busy (s := s.popped) op hb).2
  · exact absurd hr hreset
  · obtain ⟨e, m, w, v, rfl⟩ := eq_commit_of_commitStep hcommit
    exact ⟨rfl, rfl, rfl⟩
  · exact ⟨rfl, rfl, rfl⟩

/-- Settles O33: DONE and IE are bits of the two registers' words; a reset and an accept clear DONE, and a STATUS write
sets nothing. -/
theorem irqRisesOnlyAtCommitOrEnable : Obligations.IrqRisesOnlyAtCommitOrEnable := by
  unfold Obligations.IrqRisesOnlyAtCommitOrEnable
  refine ⟨fun s => ?_, fun s t h h0 h1 => ?_⟩
  · rw [hostRead_status_rdata, hostRead_ctrl_rdata, Status.word_bit_done, Ctrl.word_bit_ie, State.irq]
  · rcases step_next_cases h with ⟨op, hop, rfl⟩ | ⟨-, rfl⟩ | ⟨hc, -⟩ | rfl
    · obtain ⟨w, rfl, hw⟩ := eq_write_ctrl_of_hostStep_irq (s := s.popped) h0 h1
      exact .inr ⟨w, hop, hw⟩
    · exact absurd h1 Bool.false_ne_true
    · exact .inl hc
    · exact absurd (h0.symm.trans h1) Bool.false_ne_true

/-- Settles O35: each step takes one entry off the agenda, and the step on an empty one commits what is in flight. -/
theorem everyRunEnds : Obligations.EveryRunEnds := by
  unfold Obligations.EveryRunEnds
  exact fun s => exists_runFor_ended s.agenda s rfl

/-- Settles O36: a step that keeps the rule overruns nothing and draws nothing, and the run is a chain of them. -/
theorem safeRunsNeverOverrun : Obligations.SafeRunsNeverOverrun := by
  unfold Obligations.SafeRunsNeverOverrun
  exact fun k s t => safeRun_keeps k

end Sys2Proof.Claims
end

section
/-! PROOFS. The determinant is the textbook one: the unreduced expansion is the determinant of the integer matrix, and
each reduction mod 26 keeps it (42_determinant.md R91, R92, R94; 90_conflicts.md C1). -/

namespace Sys2Proof.Claims

open Sys2Proof.Machine

/-! ### The unreduced expansion (42_determinant.md R91) -/

theorem asMatrix_apply {n : Nat} (e : List Residue) (r c : Fin n) :
    asMatrix n e r c = val (elem e (r.val * n + c.val)) := rfl

theorem skipIndex_eq_succAbove {n : Nat} (k : Fin (n + 1)) (i : Fin n) : skipIndex k i = (k.succAbove i).val := by
  simp only [skipIndex, Fin.succAbove, Fin.lt_def, Fin.val_castSucc]
  split <;> rfl

/-- The minor is the submatrix that skips the row and the column. -/
theorem asMatrix_minor {n : Nat} (e : List Residue) (r c : Fin (n + 1)) :
    asMatrix n (minor e (n + 1) r c) = (asMatrix (n + 1) e).submatrix r.succAbove c.succAbove := by
  ext i j
  rw [Matrix.submatrix_apply, asMatrix_apply, asMatrix_apply, ← skipIndex_eq_succAbove, ← skipIndex_eq_succAbove,
    ← elem_minor e r.isLt c.isLt i.isLt j.isLt]
  rfl

theorem detExact_of_two_lt {n : Nat} (e : List Residue) (h : 2 < n) :
    detExact n e =
      ∑ i ∈ Finset.range n, (-1) ^ i * val (elem e i) * detExact (n - 1) (minor e n 0 i) := by
  match n, h with
  | m + 3, _ => rfl

theorem detExact_eq_det (n : Nat) (hn : 1 ≤ n) (e : List Residue) : detExact n e = (asMatrix n e).det := by
  induction n, hn using Nat.le_induction generalizing e with
  | base => rw [Matrix.det_fin_one, asMatrix_apply]; rfl
  | succ n hn ih =>
    rcases Nat.eq_or_lt_of_le hn with rfl | h
    · rw [Matrix.det_fin_two]
      rfl
    · rw [detExact_of_two_lt e (by omega), Finset.sum_range, Matrix.det_succ_row_zero]
      refine Finset.sum_congr rfl fun j _ => ?_
      have hminor := asMatrix_minor e 0 j
      rw [Fin.succAbove_zero] at hminor
      rw [← hminor, ← ih, asMatrix_apply, Fin.val_zero, Nat.zero_mul, Nat.zero_add]
      rfl

/-! ### Reducing mod 26 (42_determinant.md R92) -/

theorem val_det_modEq (n : Nat) (hn : 1 ≤ n) (e : List Residue) : val (det n e) ≡ detExact n e [ZMOD 26] := by
  induction n, hn using Nat.le_induction generalizing e with
  | base => rfl
  | succ n hn ih =>
    rcases Nat.eq_or_lt_of_le hn with rfl | h
    · rw [det_two, val_normalize26]
      exact Int.mod_modEq _ _
    · rw [det_of_two_lt e (by omega), detExact_of_two_lt e (by omega), val_normalize26]
      refine (Int.mod_modEq _ _).trans (Int.ModEq.sum fun i _ => ?_)
      exact (ih _).mul_left _

theorem det_eq_normalize26 {n : Nat} (hn : 1 ≤ n) {e : List Residue} (he : ∀ i, (elem e i).toNat < 26) :
    det n e = normalize26 (detExact n e) := by
  rw [← normalize26_val (det_lt n he)]
  exact normalize26_congr (val_det_modEq n hn e)

/-- Settles O55: reduced at the end, the unreduced expansion of the determinant is the engine's. -/
theorem detIsTextbookDeterminant : Obligations.DetIsTextbookDeterminant := by
  unfold Obligations.DetIsTextbookDeterminant
  intro n e hn he
  rw [det_eq_normalize26 hn he, val_normalize26, detExact_eq_det n hn]

/-- Settles O56: the remainder mod 26 is a ring homomorphism, so a reduction before the last one changes nothing. -/
theorem reductionScheduleIsFree : Obligations.ReductionScheduleIsFree := by
  unfold Obligations.ReductionScheduleIsFree
  refine ⟨fun a b => ?_, fun n e hn he => det_eq_normalize26 hn he⟩
  rw [val_normalize26, val_normalize26]
  exact ⟨normalize26_congr (Int.add_emod a b 26), normalize26_congr (Int.sub_emod a b 26),
    normalize26_congr (Int.mul_emod a b 26)⟩

end Sys2Proof.Claims
end

section
/-! PROOFS. What INV gives, over the integers mod 26: the adjugate with the source's sign, the inverse with its rows
signed, and the round trip (43_inverse.md R102 to R110; 90_conflicts.md C2). -/

namespace Sys2Proof.Claims

open Sys2Proof.Machine

/-! ### Matrices mod 26 -/

/-- An integer matrix with every entry taken mod 26. -/
def mod26 {n : Nat} : Matrix (Fin n) (Fin n) ℤ →+* Matrix (Fin n) (Fin n) (ZMod 26) :=
  (Int.castRingHom (ZMod 26)).mapMatrix

theorem mod26_apply {n : Nat} (A : Matrix (Fin n) (Fin n) ℤ) (r c : Fin n) :
    mod26 A r c = ((A r c : ℤ) : ZMod 26) := rfl

theorem sameMod26_iff {n : Nat} {A B : Matrix (Fin n) (Fin n) ℤ} : sameMod26 A B ↔ mod26 A = mod26 B := by
  simp only [← Matrix.ext_iff, mod26_apply, ZMod.intCast_eq_intCast_iff']
  rfl

theorem det_mod26 {n : Nat} (A : Matrix (Fin n) (Fin n) ℤ) : (mod26 A).det = ((A.det : ℤ) : ZMod 26) :=
  (RingHom.map_det _ A).symm

/-- The integers coprime to 26 are the units mod 26. -/
theorem gcd_eq_one_iff_isUnit {x : ℤ} : Int.gcd x 26 = 1 ↔ IsUnit (x : ZMod 26) := by
  rw [ZMod.coe_int_isUnit_iff_isCoprime, isCoprime_comm]
  exact Int.isCoprime_iff_gcd_eq_one.symm

/-- So the determinant is coprime to 26 exactly when the matrix has an inverse mod 26. -/
theorem gcd_det_eq_one_iff_isUnit {n : Nat} {A : Matrix (Fin n) (Fin n) ℤ} :
    Int.gcd A.det 26 = 1 ↔ IsUnit (mod26 A) := by
  rw [gcd_eq_one_iff_isUnit, ← det_mod26, Matrix.isUnit_iff_isUnit_det]

/-! ### The entries that INV writes (43_inverse.md R102, R103, R105) -/

/-- The sign by which a row of INV's result differs from the inverse's: the adjugate's sign exponent is the flat index,
whose parity is `r + c` at odd dimensions, and `c` at even ones (90_conflicts.md C2). -/
def rowSign (n r : Nat) : ℤ := if n = 2 ∨ n % 2 = 1 then 1 else (-1) ^ r

def rowSigns (n : Nat) : Matrix (Fin n) (Fin n) ℤ := Matrix.diagonal (fun r => rowSign n r)

theorem rowSigns_eq_one {n : Nat} (h : n = 2 ∨ n % 2 = 1) : rowSigns n = 1 := by
  simp only [rowSigns, rowSign, if_pos h, Matrix.diagonal_one]

theorem rowSigns_of_even {n : Nat} (h4 : 4 ≤ n) (h : n % 2 = 0) :
    rowSigns n = Matrix.diagonal (fun r => (-1) ^ r.val) := by
  have hn : ¬(n = 2 ∨ n % 2 = 1) := by omega
  simp only [rowSigns, rowSign, if_neg hn]

theorem rowSigns_mul_self (n : Nat) : rowSigns n * rowSigns n = 1 := by
  have hsq (r : Nat) : rowSign n r * rowSign n r = 1 := by
    rw [rowSign]
    split
    · rfl
    · rw [← mul_pow, neg_one_mul, neg_neg, one_pow]
  simp only [rowSigns, Matrix.diagonal_mul_diagonal, hsq, Matrix.diagonal_one]

theorem mod26_rowSigns_mul_self (n : Nat) : mod26 (rowSigns n) * mod26 (rowSigns n) = 1 := by
  rw [← map_mul, rowSigns_mul_self, map_one]

theorem neg_one_pow_two_mul_add (a b : Nat) : (-1 : ℤ) ^ (2 * a + b) = (-1) ^ b := by
  rw [pow_add, pow_mul, neg_one_sq, one_pow, one_mul]

theorem neg_one_pow_flatIndex {n : Nat} (hn : n ≠ 2) (r c : Nat) :
    (-1 : ℤ) ^ (r * n + c) = rowSign n r * (-1) ^ (c + r) := by
  rcases Nat.even_or_odd' n with ⟨k, rfl | rfl⟩
  · have hflat : r * (2 * k) + c = 2 * (r * k) + c := by ring
    have hsigns : r + (c + r) = 2 * r + c := by ring
    rw [rowSign, if_neg (by omega), ← pow_add, hsigns, hflat, neg_one_pow_two_mul_add, neg_one_pow_two_mul_add]
  · have hflat : r * (2 * k + 1) + c = 2 * (r * k) + (c + r) := by ring
    rw [rowSign, if_pos (by omega), one_mul, hflat, neg_one_pow_two_mul_add]

theorem asMatrix_transpose {n : Nat} (e : List Residue) : asMatrix n (transpose e n) = (asMatrix n e).transpose := by
  ext r c
  rw [Matrix.transpose_apply, asMatrix_apply, asMatrix_apply, elem_transpose e r.isLt c.isLt]

/-- The cofactor that the engine computes at `(r, c)` is the adjugate's entry there, but for the sign. -/
theorem val_det_minor_transpose {n : Nat} (hn : 1 ≤ n) (e : List Residue) (r c : Fin (n + 1)) :
    (-1) ^ (c.val + r.val) * val (det n (minor (transpose e (n + 1)) (n + 1) r c)) ≡
      (asMatrix (n + 1) e).adjugate r c [ZMOD 26] := by
  rw [Matrix.adjugate_fin_succ_eq_det_submatrix, ← Matrix.det_transpose, Matrix.transpose_submatrix,
    ← asMatrix_transpose, ← asMatrix_minor, ← detExact_eq_det n hn]
  exact (val_det_modEq n hn _).mul_left _

theorem inverseEntry_one (e : List Residue) (d : Residue) (i : Nat) : inverseEntry 1 e d i = d := rfl

theorem inverseEntry_of_two_lt {n : Nat} (hn : 2 < n) (e : List Residue) (d : Residue) {r c : Nat} (hc : c < n) :
    inverseEntry n e d (r * n + c) =
      normalize26 ((-1) ^ (r * n + c) * val (det (n - 1) (minor (transpose e n) n r c)) * val d) := by
  rw [inverseEntry, if_neg (by omega), if_neg (by omega), flatIndex_div hc, Nat.mul_add_mod_of_lt hc]

/-- At every dimension the entries are those of the adjugate times `dInv`, with the row's sign. -/
theorem inverseEntry_modEq {n : Nat} (hn : n ≠ 0) (e : List Residue) (d : Residue) (r c : Fin n) :
    val (inverseEntry n e d (r.val * n + c.val)) ≡ rowSign n r * (val d * (asMatrix n e).adjugate r c) [ZMOD 26] := by
  match n, hn with
  | 1, _ =>
    rw [inverseEntry_one, Matrix.adjugate_subsingleton, Subsingleton.elim c r, Matrix.one_apply_eq]
    simp [rowSign, Int.ModEq]
  | 2, _ =>
    rw [Matrix.adjugate_fin_two]
    fin_cases r <;> fin_cases c <;> simp [inverseEntry, rowSign, asMatrix_apply, mul_comm (val d), Int.ModEq]
  | m + 3, _ =>
    have hadj := val_det_minor_transpose (by omega : 1 ≤ m + 2) e r c
    rw [inverseEntry_of_two_lt (by omega) e d c.isLt, val_normalize26, neg_one_pow_flatIndex (by omega)]
    calc
      _ ≡ rowSign (m + 3) r * (-1) ^ (c.val + r.val) * val (det (m + 2) (minor (transpose e (m + 3)) (m + 3) r c)) *
          val d [ZMOD 26] := Int.mod_modEq _ _
      _ = rowSign (m + 3) r * (val d *
          ((-1) ^ (c.val + r.val) * val (det (m + 2) (minor (transpose e (m + 3)) (m + 3) r c)))) := by ring
      _ ≡ rowSign (m + 3) r * (val d * (asMatrix (m + 3) e).adjugate r c) [ZMOD 26] :=
        (hadj.mul_left _).mul_left _

theorem asMatrix_inverseEntries {n : Nat} (hn : n ≠ 0) (e : List Residue) (d : Residue) (r c : Fin n) :
    asMatrix n (inverseEntries n e d) r c = val (inverseEntry n e d (r.val * n + c.val)) := by
  rw [asMatrix_apply, inverseEntries_eq hn, elem_map_range _ (flatIndex_lt r.isLt c.isLt)]

/-- The result of INV mod 26: the adjugate times `dInv`, with signed rows. -/
theorem mod26_inverseEntries {n : Nat} (hn : n ≠ 0) (e : List Residue) (d : Residue) :
    mod26 (asMatrix n (inverseEntries n e d)) =
      mod26 (rowSigns n) * (((val d : ℤ) : ZMod 26) • (mod26 (asMatrix n e)).adjugate) := by
  have hsame : sameMod26 (asMatrix n (inverseEntries n e d)) (rowSigns n * (val d • (asMatrix n e).adjugate)) := by
    intro r c
    rw [asMatrix_inverseEntries hn, rowSigns, Matrix.diagonal_mul, Matrix.smul_apply, smul_eq_mul]
    exact inverseEntry_modEq hn e d r c
  have hsmul (a : ℤ) (A : Matrix (Fin n) (Fin n) ℤ) : mod26 (a • A) = (a : ZMod 26) • mod26 A := by
    ext r c
    rw [mod26_apply, Matrix.smul_apply, Matrix.smul_apply, smul_eq_mul, smul_eq_mul, mod26_apply, Int.cast_mul]
  have hadj : mod26 (asMatrix n e).adjugate = (mod26 (asMatrix n e)).adjugate := RingHom.map_adjugate _ _
  rw [sameMod26_iff.mp hsame, map_mul, hsmul, hadj]

/-! ### The inverse, with signed rows (43_inverse.md R108, R109) -/

/-- The engine's `dInv` is the inverse of the textbook determinant mod 26. -/
theorem cast_val_det {n : Nat} (hn : n ≠ 0) (e : List Residue) :
    ((val (det n e) : ℤ) : ZMod 26) = (mod26 (asMatrix n e)).det := by
  have hpos : 1 ≤ n := Nat.one_le_iff_ne_zero.mpr hn
  rw [det_mod26, ← detExact_eq_det n hpos, ZMod.intCast_eq_intCast_iff]
  exact val_det_modEq n hpos e

section Inverse

variable {n : Nat} {e : List Residue} (hn : n ≠ 0) (hu : IsUnit (mod26 (asMatrix n e)))
include hn hu

theorem gcd_val_det_eq_one : Int.gcd (val (det n e)) 26 = 1 := by
  rw [gcd_eq_one_iff_isUnit, cast_val_det hn, ← Matrix.isUnit_iff_isUnit_det]
  exact hu

theorem detInverse_mul_det : ((val (detInverse n e) : ℤ) : ZMod 26) * (mod26 (asMatrix n e)).det = 1 := by
  have hspec : val (det n e) * val (detInverse n e) % 26 = 1 := by
    have h := invTab_normalize26_spec (val (det n e))
    rwa [if_pos (gcd_val_det_eq_one hn hu)] at h
  rw [← cast_val_det hn, mul_comm, ← Int.cast_mul, ← Int.cast_one, ZMod.intCast_eq_intCast_iff']
  exact hspec

theorem mul_signed_inverseEntries :
    mod26 (asMatrix n e) * (mod26 (rowSigns n) * mod26 (asMatrix n (inverseEntries n e (detInverse n e)))) = 1 := by
  rw [mod26_inverseEntries hn, ← mul_assoc (mod26 (rowSigns n)), ← map_mul, rowSigns_mul_self, map_one, one_mul,
    Matrix.mul_smul, Matrix.mul_adjugate, smul_smul, detInverse_mul_det hn hu, one_smul]

end Inverse

theorem asMatrix_padTo (n k : Nat) (l : List Residue) : asMatrix n (padTo k l) = asMatrix n l := by
  ext r c
  rw [asMatrix_apply, asMatrix_apply, elem_padTo]

section InverseReg

variable {n : Nat} {c : Config} {m : MReg} (hdim : m.dim = n) (hn : n ≠ 0) (hu : IsUnit (mod26 (asMatrix n m.e)))
include hdim

theorem inverseReg_dim : (inverseReg c m).dim = n := hdim

include hn hu

theorem exec_inv_of_isUnit {s : State} {md ms : MNum} (hm : s.matrix ms = m) :
    exec (.inv md ms) s = succeed (s.setMatrix md (inverseReg s.cfg m)) := by
  subst hm hdim
  exact exec_inv_of_detInverse_ne_zero hn (mt detInverse_eq_zero_iff.mp (not_not_intro (gcd_val_det_eq_one hn hu)))

/-- The result of INV with its rows signed is the inverse. -/
theorem mul_signed_inverseReg :
    mod26 (asMatrix n m.e) * (mod26 (rowSigns n) * mod26 (asMatrix n (inverseReg c m).e)) = 1 := by
  subst hdim
  rw [inverseReg, asMatrix_padTo]
  exact mul_signed_inverseEntries hn hu

theorem signed_inverseReg_mul :
    mod26 (rowSigns n) * mod26 (asMatrix n (inverseReg c m).e) * mod26 (asMatrix n m.e) = 1 :=
  mul_eq_one_comm.mp (mul_signed_inverseReg hdim hn hu)

/-- The inverse of the result of INV is the matrix with its columns signed. -/
theorem inverseReg_mul_signed :
    mod26 (asMatrix n (inverseReg c m).e) * (mod26 (asMatrix n m.e) * mod26 (rowSigns n)) = 1 := by
  have hleft := signed_inverseReg_mul (c := c) hdim hn hu
  rw [mul_assoc] at hleft
  rw [← mul_assoc, ← left_inv_eq_right_inv (mod26_rowSigns_mul_self n) hleft, mod26_rowSigns_mul_self]

theorem isUnit_inverseReg : IsUnit (mod26 (asMatrix n (inverseReg c m).e)) :=
  IsUnit.of_mul_eq_one _ (inverseReg_mul_signed hdim hn hu)

/-- The round trip signs the rows and the columns of the matrix (43_inverse.md R110). -/
theorem mod26_inverseReg_inverseReg :
    mod26 (asMatrix n (inverseReg c (inverseReg c m)).e) = mod26 (rowSigns n * (asMatrix n m.e * rowSigns n)) := by
  have hagain := mul_signed_inverseReg (c := c) (inverseReg_dim (c := c) hdim) hn (isUnit_inverseReg hdim hn hu)
  have hback := mul_eq_one_comm.mp (inverseReg_mul_signed (c := c) hdim hn hu)
  rw [map_mul, map_mul, left_inv_eq_right_inv hback hagain, ← mul_assoc, mod26_rowSigns_mul_self, one_mul]

end InverseReg

/-- A matrix register is determined by its dimension and its matrix mod 26. -/
theorem eq_of_mod26_eq {n : Nat} {c : Config} {m m' : MReg} (hm : m.Ok c) (hm' : m'.Ok c) (hdim : m.dim = n)
    (hdim' : m'.dim = n) (h : mod26 (asMatrix n m'.e) = mod26 (asMatrix n m.e)) : m' = m := by
  have helem (i : Nat) : elem m'.e i = elem m.e i := by
    by_cases hi : i < n * n
    · have hpos : 0 < n := Nat.pos_of_mul_pos_left (Nat.zero_lt_of_lt hi)
      have hentry := sameMod26_iff.mpr h ⟨i / n, Nat.div_lt_of_lt_mul hi⟩ ⟨i % n, Nat.mod_lt i hpos⟩
      simp only [asMatrix_apply, Nat.div_add_mod'] at hentry
      rw [← normalize26_val (hm'.residues i), normalize26_congr hentry, normalize26_val (hm.residues i)]
    · have hi : n * n ≤ i := Nat.le_of_not_lt hi
      rw [hm.padding i (hdim ▸ hi), hm'.padding i (hdim' ▸ hi)]
  have he : m'.e = m.e := ext_elem (hm'.length_eq.trans hm.length_eq.symm) helem
  have hd : m'.dim = m.dim := hdim'.trans hdim.symm
  rw [MReg.mk.injEq]
  exact ⟨hd, he⟩

/-- An entry of a register's matrix is its own remainder mod 26. -/
theorem asMatrix_emod26 {n : Nat} {c : Config} {m : MReg} (hm : m.Ok c) (i j : Fin n) :
    asMatrix n m.e i j % 26 = asMatrix n m.e i j := by
  rw [asMatrix_apply, ← val_normalize26, normalize26_val (hm.residues _)]

/-- Settles O57: at these dimensions no row is signed. -/
theorem invIsTrueInverse : Obligations.InvIsTrueInverse := by
  unfold Obligations.InvIsTrueInverse
  intro s md ms n _ hdim hn hgcd
  have hu := gcd_det_eq_one_iff_isUnit.mp hgcd
  have h0 : n ≠ 0 := by omega
  have hright := mul_signed_inverseReg (c := s.cfg) hdim h0 hu
  have hleft := signed_inverseReg_mul (c := s.cfg) hdim h0 hu
  rw [rowSigns_eq_one hn, map_one, one_mul] at hright hleft
  refine ⟨_, exec_inv_of_isUnit hdim h0 hu rfl, rfl, ?_⟩
  rw [State.matrix_commit, State.matrix_setMatrix, if_pos rfl]
  refine ⟨inverseReg_dim hdim, sameMod26_iff.mpr ?_, sameMod26_iff.mpr ?_⟩
  · rw [map_mul, map_one, hright]
  · rw [map_mul, map_one, hleft]

/-- Settles O58: at even dimensions from 4 on the odd rows are signed. -/
theorem invAtEvenDimension : Obligations.InvAtEvenDimension := by
  unfold Obligations.InvAtEvenDimension
  intro s md ms n _ hdim h4 heven hgcd
  have hu := gcd_det_eq_one_iff_isUnit.mp hgcd
  have h0 : n ≠ 0 := by omega
  refine ⟨_, exec_inv_of_isUnit hdim h0 hu rfl, rfl, ?_⟩
  rw [State.matrix_commit, State.matrix_setMatrix, if_pos rfl, ← rowSigns_of_even h4 heven]
  refine ⟨inverseReg_dim hdim, sameMod26_iff.mpr ?_, sameMod26_iff.mpr ?_⟩
  · rw [map_mul, map_mul, map_one, mul_signed_inverseReg hdim h0 hu]
  · rw [map_mul, map_mul, map_one, signed_inverseReg_mul hdim h0 hu]

/-- Settles O59: two INVs sign the rows and the columns, which at dimensions 1, 2 and odd is the matrix itself, register
and padding, and else negates the entries at odd `r + c`. -/
theorem invRoundTrip : Obligations.InvRoundTrip := by
  unfold Obligations.InvRoundTrip
  intro s md md' ms n hok hdim hpos hgcd
  have hu := gcd_det_eq_one_iff_isUnit.mp hgcd
  have h0 : n ≠ 0 := by omega
  have hdim2 : (inverseReg s.cfg (inverseReg s.cfg (s.matrix ms))).dim = n := inverseReg_dim (inverseReg_dim hdim)
  have hok2 : (inverseReg s.cfg (inverseReg s.cfg (s.matrix ms))).Ok s.cfg := by
    rw [← hdim] at h0
    exact MReg.ok_inverseReg (MReg.ok_inverseReg hok h0) h0
  have htrip := mod26_inverseReg_inverseReg (c := s.cfg) hdim h0 hu
  have hmid : (((s.setMatrix md (inverseReg s.cfg (s.matrix ms))).commit .ok).matrix md) =
      inverseReg s.cfg (s.matrix ms) := by
    rw [State.matrix_commit, State.matrix_setMatrix, if_pos rfl]
  refine ⟨_, _, exec_inv_of_isUnit hdim h0 hu rfl,
    exec_inv_of_isUnit (inverseReg_dim hdim) h0 (isUnit_inverseReg hdim h0 hu) hmid, rfl, ?_⟩
  rw [State.matrix_commit, State.matrix_setMatrix, if_pos rfl, State.commit_cfg, State.setMatrix_cfg]
  refine ⟨fun hn => eq_of_mod26_eq hok hok2 hdim hdim2 ?_, fun h4 heven => ⟨hdim2, fun r c => ?_⟩⟩
  · rwa [rowSigns_eq_one hn, one_mul, mul_one] at htrip
  · have hentry := sameMod26_iff.mpr htrip r c
    rw [rowSigns_of_even h4 heven, Matrix.diagonal_mul, Matrix.mul_diagonal, asMatrix_emod26 hok2] at hentry
    rw [hentry, pow_add, mul_right_comm, mul_assoc]

end Sys2Proof.Claims
end
